-- ==== Sys2Proof/Word.lean ====
section
/-!
DEFINITION. The word types of the block (00_scope.md R12, R14; 30_encoding.md R80): bytes, the 32-bit clock
frequency and the 48-bit command word. Bit 0 is the least significant bit throughout.
-/
namespace Sys2Proof

/-- A control byte, time constant, interrupt vector, acknowledge result or channel index operand (R12). -/
abbrev Byte := BitVec 8

/-- A clock frequency in hertz, 32 bits unsigned (R12, R35). -/
abbrev Frequency := BitVec 32

/-- A command word: `op` in bits 47:40, `idx` in bits 39:32, `data` in bits 31:0 (R80). -/
abbrev CommandWord := BitVec 48

end Sys2Proof
end

