-- ==== Sys2Proof/Config.lean ====
section
/-!
DEFINITION. The two parameters that 93_implementation_defined.md names (U7, U8), each at the value the spec gives it.
The block has no implementation option (00_scope.md R13), and its four channels are no parameter (R10).
-/
namespace Sys2Proof.Config

/-- U7 and D4: whether WCTL with control bit 1 or 2 set, and WTC, clear the prescaler accumulator.
The spec's value is false (R33, R100, R101, R166); log entry 3. UNVERIFIED against the repository. -/
def prescalerResetOnWrite : Bool := false

/-- U8 and C1: whether TRIG records the level of a Timer-mode channel. 90_conflicts.md C1 decides that it
does (R32, R115); log entry 4. UNVERIFIED against the repository. -/
def trigUpdatesEdgeInTimerMode : Bool := true

end Sys2Proof.Config
end

