-- ==== Sys2Proof/Syntax.lean ====
section
/-!
DEFINITION. The eleven operations of the block (00_scope.md R7, R8; 30_encoding.md R81), one constructor per row
of spec/opcode_table.json, with the operands of 30_encoding.md R82. The operand types are exactly the operand
fields' widths, so every term of `Instr` has an encoding.
-/
namespace Sys2Proof

/-- A command of the block. The index operand is any byte: 4 to 255 decode and act as R51 says. -/
inductive Instr where
  /-- INIT freq: reset the whole block and record the clock frequency (R130). -/
  | init (freq : Frequency)
  /-- WCTL i, b: write a channel's control word (R100). -/
  | wctl (idx : Byte) (b : Byte)
  /-- WTC i, k: load a channel's time constant and start it (R101). -/
  | wtc (idx : Byte) (k : Byte)
  /-- SETCB i, on|off: attach or remove a channel's expiration callback (R104). -/
  | setcb (idx : Byte) (install : Bool)
  /-- TRIG i, 1|0: present a level on a channel's trigger input (R115). -/
  | trig (idx : Byte) (level : Bool)
  /-- TICK: advance every channel by one base clock unit (R113). -/
  | tick
  /-- SETVEC i, v: write a channel's interrupt vector (R102). -/
  | setvec (idx : Byte) (v : Byte)
  /-- GETVEC i: read a channel's interrupt vector (R103). -/
  | getvec (idx : Byte)
  /-- SETHND on|off: install or remove the global interrupt handler (R122). -/
  | sethnd (install : Bool)
  /-- HASPEND: report whether any channel requests an interrupt (R120). -/
  | haspend
  /-- ACK: acknowledge the highest-priority requesting channel (R121). -/
  | ack
deriving DecidableEq, Repr

/-- The mnemonic of an instruction, as spec/opcode_table.json spells it (R8). -/
def Instr.mnemonic : Instr → String
  | .init _ => "INIT"
  | .wctl _ _ => "WCTL"
  | .wtc _ _ => "WTC"
  | .setcb _ _ => "SETCB"
  | .trig _ _ => "TRIG"
  | .tick => "TICK"
  | .setvec _ _ => "SETVEC"
  | .getvec _ => "GETVEC"
  | .sethnd _ => "SETHND"
  | .haspend => "HASPEND"
  | .ack => "ACK"

/-- The channel index operand of an operation that addresses a channel (R50, R81); `none` for INIT, TICK, SETHND,
HASPEND and ACK, which address no channel. -/
def Instr.index? : Instr → Option Byte
  | .init _ => none
  | .wctl idx _ => some idx
  | .wtc idx _ => some idx
  | .setcb idx _ => some idx
  | .trig idx _ => some idx
  | .tick => none
  | .setvec idx _ => some idx
  | .getvec idx => some idx
  | .sethnd _ => none
  | .haspend => none
  | .ack => none

end Sys2Proof
end

