-- ==== Sys2Proof/WellFormed.lean ====
section
/-!
DEFINITION. What is well formed before the block steps: a command word against spec/opcode_table.json
(30_encoding.md R84 to R86), and an assembly command, whose operands are plain numbers, against the operand
widths of R82 and R88. A term of `Instr` needs no check: its operand types are the widths of R82.
-/
namespace Sys2Proof

/-- A row of spec/opcode_table.json: a word is the row's when the bits of `mask` equal those of `pattern` (R86). -/
structure OpcodeRow where
  mnemonic : String
  pattern : CommandWord
  mask : CommandWord
deriving DecidableEq, Repr

/-- spec/opcode_table.json, its "match" and "mask" columns (R86). -/
def opcodeTable : List OpcodeRow :=
  [ ⟨"INIT",    0x010000000000, 0xFFFF00000000⟩,
    ⟨"WCTL",    0x020000000000, 0xFF00FFFFFF00⟩,
    ⟨"WTC",     0x030000000000, 0xFF00FFFFFF00⟩,
    ⟨"SETCB",   0x040000000000, 0xFF00FFFFFFFE⟩,
    ⟨"TRIG",    0x050000000000, 0xFF00FFFFFFFE⟩,
    ⟨"TICK",    0x060000000000, 0xFFFFFFFFFFFF⟩,
    ⟨"SETVEC",  0x070000000000, 0xFF00FFFFFF00⟩,
    ⟨"GETVEC",  0x080000000000, 0xFF00FFFFFFFF⟩,
    ⟨"SETHND",  0x090000000000, 0xFFFFFFFFFFFE⟩,
    ⟨"HASPEND", 0x0A0000000000, 0xFFFFFFFFFFFF⟩,
    ⟨"ACK",     0x0B0000000000, 0xFFFFFFFFFFFF⟩ ]

/-- The word is one of the row's (R86). -/
def OpcodeRow.accepts (r : OpcodeRow) (w : CommandWord) : Bool :=
  w &&& r.mask == r.pattern

/-- The row's op value is the word's: they agree in bits 47:40 (R80). -/
def OpcodeRow.hasOpOf (r : OpcodeRow) (w : CommandWord) : Bool :=
  (w ^^^ r.pattern) >>> 40 == 0

/-- First check of a word: its op is assigned (R85). -/
def opAssigned (w : CommandWord) : Bool :=
  opcodeTable.any (·.hasOpOf w)

/-- Second check of a word: no bit that its op requires to be 0 is 1 (R84). -/
def reservedClear (w : CommandWord) : Bool :=
  opcodeTable.all fun r => !r.hasOpOf w || r.accepts w

/-- A word that decodes to a command (R86). -/
def wordWellFormed (w : CommandWord) : Bool :=
  opAssigned w && reservedClear w

/-- A command of the assembly language (R88) or one of its pseudo-instructions (R89). Its operands are numbers
as written, so some terms have no encoding. -/
inductive AsmCommand where
  | init (freq : Nat)
  | wctl (i b : Nat)
  | wtc (i k : Nat)
  | setcb (i : Nat) (on : Bool)
  | trig (i : Nat) (level : Bool)
  | tick
  | setvec (i v : Nat)
  | getvec (i : Nat)
  | sethnd (on : Bool)
  | haspend
  | ack
  /-- TICKS n: n copies of TICK (R89). -/
  | ticks (n : Nat)
  /-- RISE i: TRIG i, 0 then TRIG i, 1 (R89). -/
  | rise (i : Nat)
  /-- FALL i: TRIG i, 1 then TRIG i, 0 (R89). -/
  | fall (i : Nat)
deriving DecidableEq, Repr

/-- Check: the number fits a byte field (the index operand, a control byte, a time constant, a vector; R82). -/
def fitsByte (n : Nat) : Bool := n < 2 ^ 8

/-- Check: the number fits INIT's 32-bit frequency (R82). -/
def fitsFrequency (n : Nat) : Bool := n < 2 ^ 32

/-- Every operand of the assembly command fits its field (R82). -/
def AsmCommand.wellFormed : AsmCommand → Bool
  | .init freq => fitsFrequency freq
  | .wctl i b => fitsByte i && fitsByte b
  | .wtc i k => fitsByte i && fitsByte k
  | .setcb i _ => fitsByte i
  | .trig i _ => fitsByte i
  | .tick => true
  | .setvec i v => fitsByte i && fitsByte v
  | .getvec i => fitsByte i
  | .sethnd _ => true
  | .haspend => true
  | .ack => true
  | .ticks _ => true
  | .rise i => fitsByte i
  | .fall i => fitsByte i

end Sys2Proof
end

