-- ==== Sys2Proof/Decode.lean ====
section
/-!
DEFINITION. The decoder of command words, total on every 48-bit word (30_encoding.md R80 to R86), and the encoder.
A word has no bytes in memory and so no byte order (20_memory.md R54): it is one value, bit 0 least significant.
-/
namespace Sys2Proof

/-- Why the decoder refuses a word (60_exceptions.md R141). -/
inductive DecodeRefusal where
  /-- The op field is 0x00 or 0x0C to 0xFF (R85). -/
  | unassignedOp
  /-- A bit the op requires to be 0 is 1 (R84). -/
  | reservedBits
deriving DecidableEq, Repr

/-- What the decoder answers: one instruction, or a refusal by name (R86). -/
inductive Decoded where
  | instr (i : Instr)
  | refused (r : DecodeRefusal)
deriving DecidableEq, Repr

/-- The `op` field, bits 47:40 (R80). -/
def opField (w : CommandWord) : BitVec 8 := w.extractLsb' 40 8

/-- The `idx` field, bits 39:32 (R80). -/
def idxField (w : CommandWord) : Byte := w.extractLsb' 32 8

/-- The `data` field, bits 31:0 (R80). -/
def dataField (w : CommandWord) : BitVec 32 := w.extractLsb' 0 32

/-- The byte operand, data[7:0] (R82). -/
def dataByte (data : BitVec 32) : Byte := data.extractLsb' 0 8

/-- The bit operand, data[0] (R82). -/
def dataBit (data : BitVec 32) : Bool := data.getLsbD 0

/-- data[31:8], reserved where the operand is a byte (R82). -/
def aboveByte (data : BitVec 32) : BitVec 24 := data.extractLsb' 8 24

/-- data[31:1], reserved where the operand is a bit (R82). -/
def aboveBit (data : BitVec 32) : BitVec 31 := data.extractLsb' 1 31

/-- The reserved-bit test that follows the match on `op` (R84, R86). -/
def unlessReserved (reservedZero : Bool) (i : Instr) : Decoded :=
  if reservedZero then .instr i else .refused .reservedBits

/-- The command of the three fields: a match on `op`, then the reserved-bit test for that op (R82, R84 to R86). -/
def decodeFields (op : BitVec 8) (idx : Byte) (data : BitVec 32) : Decoded :=
  match op with
  | 0x01#8 => unlessReserved (idx == 0) (.init data)
  | 0x02#8 => unlessReserved (aboveByte data == 0) (.wctl idx (dataByte data))
  | 0x03#8 => unlessReserved (aboveByte data == 0) (.wtc idx (dataByte data))
  | 0x04#8 => unlessReserved (aboveBit data == 0) (.setcb idx (dataBit data))
  | 0x05#8 => unlessReserved (aboveBit data == 0) (.trig idx (dataBit data))
  | 0x06#8 => unlessReserved (idx == 0 && data == 0) .tick
  | 0x07#8 => unlessReserved (aboveByte data == 0) (.setvec idx (dataByte data))
  | 0x08#8 => unlessReserved (data == 0) (.getvec idx)
  | 0x09#8 => unlessReserved (idx == 0 && aboveBit data == 0) (.sethnd (dataBit data))
  | 0x0A#8 => unlessReserved (idx == 0 && data == 0) .haspend
  | 0x0B#8 => unlessReserved (idx == 0 && data == 0) .ack
  | _ => .refused .unassignedOp

/-- The decoder (R80, R86). -/
def decode (w : CommandWord) : Decoded := decodeFields (opField w) (idxField w) (dataField w)

/-- A word from its three fields (R80). -/
def packWord (op idx : BitVec 8) (data : BitVec 32) : CommandWord := op ++ idx ++ data

/-- A byte operand in the data field, data[31:8] zero (R82). -/
def byteData (b : Byte) : BitVec 32 := b.setWidth 32

/-- A bit operand in the data field, data[31:1] zero (R82). -/
def bitData (b : Bool) : BitVec 32 := (BitVec.ofBool b).setWidth 32

/-- The encoder, from the same tables (R81, R82). -/
def encode : Instr → CommandWord
  | .init freq => packWord 0x01 0 freq
  | .wctl idx b => packWord 0x02 idx (byteData b)
  | .wtc idx k => packWord 0x03 idx (byteData k)
  | .setcb idx install => packWord 0x04 idx (bitData install)
  | .trig idx level => packWord 0x05 idx (bitData level)
  | .tick => packWord 0x06 0 0
  | .setvec idx v => packWord 0x07 idx (byteData v)
  | .getvec idx => packWord 0x08 idx 0
  | .sethnd install => packWord 0x09 0 (bitData install)
  | .haspend => packWord 0x0A 0 0
  | .ack => packWord 0x0B 0 0

/-- The command word whose low `nbits` bits are those of `w` and whose other bits are 0. -/
def tableWord (nbits w : Nat) : CommandWord := BitVec.ofNat 48 (w % 2 ^ nbits)

/-- The instruction the decoder reads from a row of spec/opcode_table.json. Every row is one 48-bit word, numbered
there as in R80; a number that needs more than 48 bits is no command word. -/
def decodeTableWord (nbits w : Nat) : Option Instr :=
  if w % 2 ^ nbits < 2 ^ 48 then
    match decode (tableWord nbits w) with
    | .instr i => some i
    | .refused _ => none
  else none

end Sys2Proof
end

