-- ==== Sys2Proof/Machine/State.lean ====
section
/-!
DEFINITION. The state of the block (10_state.md R20 to R37), its ports (00_scope.md R7, R16), the host's command list
and command index (20_memory.md R60, R61), the reasons a step can stop, and the state after reset. The block has
no memory (20_memory.md R50), no general registers and no program counter of its own (R20).
-/
namespace Sys2Proof.Machine

/-- A channel's number, which is also its interrupt priority, 0 the highest (R10, R21). -/
abbrev ChannelId := Fin 4

/-- What a channel counts (R22). -/
inductive Mode where
  /-- "counts internal clock ticks after prescaling" -/
  | timer
  /-- "counts external edge events" -/
  | counter
deriving DecidableEq, Repr

/-- The Timer-mode divisor, one of two (R11, R23). -/
inductive Prescaler where
  | div16
  | div256
deriving DecidableEq, Repr

/-- The external transition that counts in Counter mode (R24). -/
inductive Edge where
  | falling
  | rising
deriving DecidableEq, Repr

/-- One channel (R22 to R34). -/
structure Channel where
  /-- R22 -/
  mode : Mode
  /-- R23 -/
  prescaler : Prescaler
  /-- R24 -/
  triggerEdge : Edge
  /-- R25 -/
  interruptEnabled : Bool
  /-- R26 -/
  interruptVector : Byte
  /-- R27: the raw last-written control byte -/
  controlRegister : Byte
  /-- R28 -/
  timeConstant : Byte
  /-- R29: a natural in 0..256 that never wraps (D5) -/
  currentCount : Nat
  /-- R30 -/
  isRunning : Bool
  /-- R31: the interrupt latch -/
  interruptPending : Bool
  /-- R32: the edge detector's memory -/
  lastTriggerState : Bool
  /-- R33: the prescaler accumulator, a natural that never wraps (D5) -/
  triggerCount : Nat
  /-- R34 -/
  cbInstalled : Bool
deriving DecidableEq, Repr

/-- The four channels (R10, R21). -/
structure Channels where
  c0 : Channel
  c1 : Channel
  c2 : Channel
  c3 : Channel
deriving DecidableEq, Repr

/-- The Controller's own fields (R35 to R37). -/
structure Controller where
  /-- R35: metadata, read by no operation -/
  systemClockFrequency : Frequency
  /-- R36 -/
  handlerInstalled : Bool
  /-- R37 -/
  initialised : Bool
deriving DecidableEq, Repr

/-- What the response port carries after a step (R7, R16). -/
inductive Response where
  | none
  | byte (b : Byte)
  | bit (b : Bool)
deriving DecidableEq, Repr

/-- An invocation of host code during a step (R7). -/
inductive Event where
  /-- `CB(i)`: channel i's expiration callback is invoked (R110). -/
  | cb (i : ChannelId)
  /-- `HND(i)`: the global interrupt handler is invoked for channel i (R121). -/
  | hnd (i : ChannelId)
deriving DecidableEq, Repr

/-- What the host supplies for one step: the command word, and the byte its global handler would return in that
step, which the block reads only in an ACK that invokes the handler (R7, R16). -/
structure Issue where
  word : CommandWord
  answer : Byte
deriving DecidableEq, Repr

/-- The machine: the block's state, its ports and the host's command list. -/
structure State where
  /-- the four channels, R21 to R34 -/
  ch : Channels
  /-- the Controller, R35 to R37 -/
  ctl : Controller
  /-- the host's command list, never written by the block (R60, R61), with the host answer of each step (R16) -/
  program : List Issue
  /-- the command index (R60) -/
  index : Nat
  /-- the host-answer port: the byte the host presents in the current step (R7) -/
  hostAnswer : Byte
  /-- the response port: what the last step answered (R7) -/
  response : Response
  /-- the event port: the host-code invocations of the last step, in order (R7) -/
  events : List Event
deriving DecidableEq, Repr

/-- Why the machine can stop with a fault. The block itself has no fault state (R140). -/
inductive Fault where
  /-- Raised by `step` alone, when the command list holds no command at the command index: the host issues nothing,
  and the block never steps on its own (R6, R60). No instruction's meaning raises it. Safe: no step is taken. -/
  | noCommand
deriving DecidableEq, Repr

/-- Why a command is refused: the three reasons of R141, and the reserved name for an arm without a meaning. -/
inductive Refusal where
  /-- Raised by `exec` for an instruction that has no meaning yet; no arm raises it. Safe. -/
  | notModelled (mnemonic : String)
  /-- Raised by `step` when the op field is 0x00 or 0x0C to 0xFF (R85, R141). Safe. -/
  | unassignedOp
  /-- Raised by `step` when a bit the op requires to be 0 is 1 (R84, R141). Safe. -/
  | reservedBits
  /-- Raised by every meaning but INIT's while the block is not initialised (R141, R161). Safe. -/
  | beforeInit
deriving DecidableEq, Repr

/-- A channel after INIT (R130): Timer mode, prescaler 16, Falling edge, stopped, interrupts disabled, the rest zero. -/
def Channel.reset : Channel where
  mode := .timer
  prescaler := .div16
  triggerEdge := .falling
  interruptEnabled := false
  interruptVector := 0x00
  controlRegister := 0x00
  timeConstant := 0x00
  currentCount := 0
  isRunning := false
  interruptPending := false
  lastTriggerState := false
  triggerCount := 0
  cbInstalled := false

/-- The four channels after INIT (R130). -/
def Channels.reset : Channels := ⟨Channel.reset, Channel.reset, Channel.reset, Channel.reset⟩

/-- The Controller after INIT with the given frequency (R130). -/
def Controller.reset (freq : Frequency) : Controller where
  systemClockFrequency := freq
  handlerInstalled := false
  initialised := true

/-- The machine right after reset. The block's reset is INIT (R130, R160), so every field of the block holds its value
after INIT; the frequency, which INIT takes from its operand, is 0 (DESIGN CHOICE, log entry 1). No command is
listed and the index is 0 (R60); the ports are empty, and the host-answer port reads 0x00 (DESIGN CHOICE, log entry 2). -/
def State.reset : State where
  ch := Channels.reset
  ctl := Controller.reset 0
  program := []
  index := 0
  hostAnswer := 0x00
  response := .none
  events := []

/-- A machine before the first INIT: `ctl.initialised` is false (R37, R161). The spec defines no other field there
(D8); this one state, with the others as after reset, serves runs that begin with INIT (log entry 1). -/
def State.beforeInit : State :=
  { State.reset with ctl := { Controller.reset 0 with initialised := false } }

end Sys2Proof.Machine
end

