-- ==== Sys2Proof/Machine/Operands.lean ====
section
/-!
DEFINITION. The operand forms: the channel index (00_scope.md R17), the time constant (R18), and the fields of the
control byte (30_encoding.md R71 to R77).
-/
namespace Sys2Proof.Machine

/-- The channel an index operand names, if it is valid: `valid(i)` is `i <= 3` (R17). -/
def channelOf (idx : Byte) : Option ChannelId :=
  if h : idx.toNat ≤ 3 then some ⟨idx.toNat, Nat.lt_succ_of_le h⟩ else none

/-- `reload(k)`, the count that a time constant stands for: 0 encodes 256 (R18). -/
def reload (k : Byte) : Nat := if k = 0 then 256 else k.toNat

/-- The divisor of a prescaler setting (R11). -/
def Prescaler.divisor : Prescaler → Nat
  | .div16 => 16
  | .div256 => 256

/-- Control bit 7, interrupt enable (R71). -/
def decIE (b : Byte) : Bool := b.getLsbD 7

/-- Control bit 6, mode (R72). -/
def decMode (b : Byte) : Mode := if b.getLsbD 6 then .counter else .timer

/-- Control bit 5, prescaler (R73). -/
def decPre (b : Byte) : Prescaler := if b.getLsbD 5 then .div256 else .div16

/-- Control bit 4, trigger edge (R74). -/
def decEdge (b : Byte) : Edge := if b.getLsbD 4 then .rising else .falling

/-- Control bit 2, "a time constant is expected next" (R76). Bits 3 and 0 are not decoded (R75, R77). -/
def decTCF (b : Byte) : Bool := b.getLsbD 2

/-- Control bit 1, software reset (R76). -/
def decRST (b : Byte) : Bool := b.getLsbD 1

end Sys2Proof.Machine
end

