-- ==== Sys2Proof/Machine/Flags.lean ====
section
/-!
DEFINITION. The conditions computed from a channel's bits: its interrupt request (60_exceptions.md R146) and its
edge detector (41_counting.md R112). The block has no flags register (10_state.md R20).
-/
namespace Sys2Proof.Machine

/-- `req(i)`: the channel requests an interrupt, enabled and pending (R146). -/
def Channel.requests (c : Channel) : Bool := c.interruptEnabled && c.interruptPending

/-- `edge(i, level)`: the new level makes the selected transition since the last TRIG to the channel (R112). -/
def Channel.seesEdge (c : Channel) (level : Bool) : Bool :=
  (c.triggerEdge == .rising && !c.lastTriggerState && level)
    || (c.triggerEdge == .falling && c.lastTriggerState && !level)

/-- The pending latch after a zero-crossing: set if enabled, else unchanged (R110, R145). -/
def Channel.latchedPending (c : Channel) : Bool := c.interruptEnabled || c.interruptPending

end Sys2Proof.Machine
end

