-- ==== Sys2Proof/Machine/Ops.lean ====
section
/-!
DEFINITION. The shared operations: reading and writing a channel (00_scope.md R15), the ports (R7), the guard every
operation but INIT passes (R161), the count-down and the zero-crossing (41_counting.md R110, R111), the selection of
a request (R121, R147), and what a step does around an operation (R16, R60).
The block takes no exception and returns from none (60_exceptions.md R140, R150): its part of interrupt entry is the
acknowledge (R149), `State.acknowledge` here.
-/
namespace Sys2Proof.Machine

/-- All channels in index order, which is also priority order (R62, R121, R147). -/
def channelIds : List ChannelId := [0, 1, 2, 3]

/-- `ch[i]`, read (R15). -/
def Channels.get (cs : Channels) (i : ChannelId) : Channel :=
  match i with
  | 0 => cs.c0
  | 1 => cs.c1
  | 2 => cs.c2
  | 3 => cs.c3

/-- `ch[i] <- c` (R15). -/
def Channels.set (cs : Channels) (i : ChannelId) (c : Channel) : Channels :=
  match i with
  | 0 => { cs with c0 := c }
  | 1 => { cs with c1 := c }
  | 2 => { cs with c2 := c }
  | 3 => { cs with c3 := c }

/-- Channel i of the state. -/
def State.channel (s : State) (i : ChannelId) : Channel := s.ch.get i

/-- Channel i of the state, replaced. -/
def State.setChannel (s : State) (i : ChannelId) (c : Channel) : State :=
  { s with ch := s.ch.set i c }

/-- `respond(v)` (R15). -/
def State.respond (s : State) (r : Response) : State := { s with response := r }

/-- `emit(E)`: append an event to the step's event list (R15). -/
def State.emit (s : State) (e : Event) : State := { s with events := s.events ++ [e] }

/-- The output ports as an operation finds them: no response yet and no event (R16). -/
def State.openPorts (s : State) : State := { s with response := .none, events := [] }

/-- An operation other than INIT: refused before the first INIT (R161), else its effect, with the ports open. -/
def State.operate (s : State) (effect : State → State) : Host.Outcome State Fault Refusal :=
  if s.ctl.initialised then .next (effect s.openPorts) else .refused .beforeInit

/-- A change of the one channel an index operand names; an index that is not valid changes nothing (R51). -/
def State.updateAt (s : State) (idx : Byte) (f : Channel → Channel) : State :=
  match channelOf idx with
  | some i => s.setChannel i (f (s.channel i))
  | none => s

/-- A channel reloaded, its interrupt latched if enabled (R110). -/
def Channel.reloaded (c : Channel) : Channel :=
  { c with currentCount := reload c.timeConstant, interruptPending := c.latchedPending }

/-- `zero_crossing(i)`: reload, latch the interrupt if enabled, invoke the callback if installed (R110). -/
def State.zeroCrossing (s : State) (i : ChannelId) : State :=
  let s' := s.setChannel i (s.channel i).reloaded
  if (s'.channel i).cbInstalled then s'.emit (.cb i) else s'

/-- A channel's count decremented, with a floor at 0 (R111). -/
def Channel.decremented (c : Channel) : Channel :=
  if 0 < c.currentCount then { c with currentCount := c.currentCount - 1 } else c

/-- `count_down(i)`: decrement with a floor at 0, then zero-cross at 0 (R111). -/
def State.countDown (s : State) (i : ChannelId) : State :=
  let s' := s.setChannel i (s.channel i).decremented
  if (s'.channel i).currentCount = 0 then s'.zeroCrossing i else s'

/-- The lowest-numbered requesting channel, the highest in priority (R121, R147). -/
def State.selected (s : State) : Option ChannelId :=
  channelIds.find? fun i => (s.channel i).requests

/-- The block's part of interrupt entry (R121, R149): clear the selected channel's pending bit, then answer with the
handler's byte, invoking it, or with the stored vector. Nothing is kept of the interrupt afterwards (R150). -/
def State.acknowledge (s : State) (i : ChannelId) : State :=
  let c := s.channel i
  let s' := s.setChannel i { c with interruptPending := false }
  if s'.ctl.handlerInstalled then (s'.emit (.hnd i)).respond (.byte s'.hostAnswer)
  else s'.respond (.byte c.interruptVector)

/-- The command the host issues at the command index, if any (R60). -/
def State.fetch? (s : State) : Option Issue := s.program[s.index]?

/-- The host's answer for this step is put on the host-answer port (R7, R16). -/
def State.present (s : State) (answer : Byte) : State := { s with hostAnswer := answer }

/-- The command index advances by exactly one (R60). -/
def State.advance (s : State) : State := { s with index := s.index + 1 }

/-- What a step makes of an operation's outcome: a completed operation advances the command index, and a stop
changes nothing (R60, R141). -/
def advanceOutcome : Host.Outcome State Fault Refusal → Host.Outcome State Fault Refusal
  | .next s => .next s.advance
  | .fault f => .fault f
  | .refused r => .refused r

/-- The decoder's refusal as the machine's (R141). -/
def refusalOf : DecodeRefusal → Refusal
  | .unassignedOp => .unassignedOp
  | .reservedBits => .reservedBits

/-- The command list with one issue placed at an index. Places before it that the list does not reach are filled with
the same issue; nothing runs them. -/
def placeIssue (program : List Issue) (index : Nat) (c : Issue) : List Issue :=
  let before := program.take index
  before ++ List.replicate (index - before.length) c ++ c :: program.drop (index + 1)

end Sys2Proof.Machine
end

