-- ==== Sys2Proof/Machine/Configuration.lean ====
section
/-!
DEFINITION. The channel configuration operations: WCTL, WTC, SETVEC, GETVEC, SETCB (40_channel_config.md R100 to
R104). None emits an event or causes a zero-crossing.
-/
namespace Sys2Proof.Machine

/-- The control byte stored, and the four fields it decodes to, on every write (R70, R100). -/
def Channel.configured (b : Byte) (c : Channel) : Channel :=
  { c with
    controlRegister := b
    interruptEnabled := decIE b
    mode := decMode b
    prescaler := decPre b
    triggerEdge := decEdge b }

/-- "software reset: count←0, running←false, interrupt_pending←false" (R76). -/
def Channel.softReset (c : Channel) : Channel :=
  { c with currentCount := 0, isRunning := false, interruptPending := false }

/-- "a time constant is expected next": the channel stops (R76). -/
def Channel.stopped (c : Channel) : Channel := { c with isRunning := false }

/-- The prescaler accumulator cleared: the other reading of U7, which no operation uses at the spec's value. -/
def Channel.phaseCleared (c : Channel) : Channel := { c with triggerCount := 0 }

/-- A channel after a control-word write (R100). -/
def Channel.writeControl (b : Byte) (c : Channel) : Channel :=
  let c := c.configured b
  let c := if decRST b then c.softReset else c
  let c := if decTCF b then c.stopped else c
  if Config.prescalerResetOnWrite && (decRST b || decTCF b) then c.phaseCleared else c

/-- WCTL (R100). -/
def execWctl (idx b : Byte) (s : State) : Host.Outcome State Fault Refusal :=
  s.operate fun s => s.updateAt idx (Channel.writeControl b)

/-- The time constant loaded and the channel started (R101). -/
def Channel.started (k : Byte) (c : Channel) : Channel :=
  { c with timeConstant := k, currentCount := reload k, isRunning := true, interruptPending := false }

/-- A channel after a time-constant write (R101). -/
def Channel.writeTimeConstant (k : Byte) (c : Channel) : Channel :=
  let c := c.started k
  if Config.prescalerResetOnWrite then c.phaseCleared else c

/-- WTC (R101). -/
def execWtc (idx k : Byte) (s : State) : Host.Outcome State Fault Refusal :=
  s.operate fun s => s.updateAt idx (Channel.writeTimeConstant k)

/-- SETVEC (R102). -/
def execSetvec (idx v : Byte) (s : State) : Host.Outcome State Fault Refusal :=
  s.operate fun s => s.updateAt idx fun c => { c with interruptVector := v }

/-- The vector GETVEC answers with: 0x00 for an index that is not valid (R51, R103). -/
def State.vectorAt (s : State) (idx : Byte) : Byte :=
  match channelOf idx with
  | some i => (s.channel i).interruptVector
  | none => 0x00

/-- GETVEC (R103). -/
def execGetvec (idx : Byte) (s : State) : Host.Outcome State Fault Refusal :=
  s.operate fun s => s.respond (.byte (s.vectorAt idx))

/-- SETCB (R104). -/
def execSetcb (idx : Byte) (install : Bool) (s : State) : Host.Outcome State Fault Refusal :=
  s.operate fun s => s.updateAt idx fun c => { c with cbInstalled := install }

end Sys2Proof.Machine
end

