-- ==== Sys2Proof/Machine/Counting.lean ====
section
/-!
DEFINITION. The counting operations: TICK and TRIG (41_counting.md R113, R115).
-/
namespace Sys2Proof.Machine

/-- TICK's work on channel i: a running Timer-mode channel advances its prescaler accumulator, and counts down when
the accumulator reaches the divisor (R113). -/
def State.tickChannel (s : State) (i : ChannelId) : State :=
  let c := s.channel i
  if c.mode = .timer ∧ c.isRunning = true then
    let t := c.triggerCount + 1
    if t < c.prescaler.divisor then s.setChannel i { c with triggerCount := t }
    else (s.setChannel i { c with triggerCount := 0 }).countDown i
  else s

/-- TICK: every channel in index order (R62, R113). -/
def execTick (s : State) : Host.Outcome State Fault Refusal :=
  s.operate fun s => channelIds.foldl State.tickChannel s

/-- TRIG's work on channel i: a running Counter-mode channel counts down on its selected edge, and the level is then
recorded in every mode (R115, C1). The Timer-mode half of the record is the parameter of U8. -/
def State.trigger (s : State) (i : ChannelId) (level : Bool) : State :=
  let c := s.channel i
  let counted :=
    if c.mode = .counter ∧ c.seesEdge level = true ∧ c.isRunning = true then s.countDown i else s
  if c.mode = .counter ∨ Config.trigUpdatesEdgeInTimerMode = true then
    counted.setChannel i { counted.channel i with lastTriggerState := level }
  else counted

/-- TRIG (R115). -/
def execTrig (idx : Byte) (level : Bool) (s : State) : Host.Outcome State Fault Refusal :=
  s.operate fun s =>
    match channelOf idx with
    | some i => s.trigger i level
    | none => s

end Sys2Proof.Machine
end

