-- ==== Sys2Proof/Machine/Initialisation.lean ====
section
/-!
DEFINITION. INIT, the block's reset and the one command accepted before it (43_controller.md R130).
-/
namespace Sys2Proof.Machine

/-- INIT: every field of the block to its reset value, the frequency to the operand (R130). The command list and the
command index are the host's and stay (R60). -/
def execInit (freq : Frequency) (s : State) : Host.Outcome State Fault Refusal :=
  .next { s.openPorts with ch := Channels.reset, ctl := Controller.reset freq }

end Sys2Proof.Machine
end

