-- ==== Sys2Proof/Machine/Interrupts.lean ====
section
/-!
DEFINITION. The interrupt arbiter's operations: HASPEND, ACK, SETHND (42_interrupts.md R120 to R122).
-/
namespace Sys2Proof.Machine

/-- HASPEND: the OR of the four requests (R120). -/
def execHaspend (s : State) : Host.Outcome State Fault Refusal :=
  s.operate fun s => s.respond (.bit (channelIds.any fun i => (s.channel i).requests))

/-- ACK: acknowledge the selected channel; with none, answer 0x00 and change nothing (R121). -/
def execAck (s : State) : Host.Outcome State Fault Refusal :=
  s.operate fun s =>
    match s.selected with
    | some i => s.acknowledge i
    | none => s.respond (.byte 0x00)

/-- SETHND (R122). -/
def execSethnd (install : Bool) (s : State) : Host.Outcome State Fault Refusal :=
  s.operate fun s => { s with ctl := { s.ctl with handlerInstalled := install } }

end Sys2Proof.Machine
end

