-- ==== Sys2Proof/Machine/Dispatch.lean ====
section
/-!
DEFINITION. One arm per instruction (30_encoding.md R81).
-/
namespace Sys2Proof.Machine

def exec (i : Instr) (s : State) : Host.Outcome State Fault Refusal :=
  match i with
  | .init freq => Sys2Proof.Machine.execInit freq s
  | .wctl idx b => Sys2Proof.Machine.execWctl idx b s
  | .wtc idx k => Sys2Proof.Machine.execWtc idx k s
  | .setcb idx install => Sys2Proof.Machine.execSetcb idx install s
  | .trig idx level => Sys2Proof.Machine.execTrig idx level s
  | .tick => Sys2Proof.Machine.execTick s
  | .setvec idx v => Sys2Proof.Machine.execSetvec idx v s
  | .getvec idx => Sys2Proof.Machine.execGetvec idx s
  | .sethnd install => Sys2Proof.Machine.execSethnd install s
  | .haspend => Sys2Proof.Machine.execHaspend s
  | .ack => Sys2Proof.Machine.execAck s

end Sys2Proof.Machine
end

