-- ==== Sys2Proof/Machine/Step.lean ====
section
/-!
DEFINITION. One step: the host's next command is fetched, decoded and run, and the command index advances
(00_scope.md R6, R16; 20_memory.md R60; 60_exceptions.md R141, R142).
-/
namespace Sys2Proof.Machine

/-- One step of the block. A word the decoder refuses is refused before the state is consulted (R142). With no
command at the index the block does not step (R6). -/
def step (s : State) : Host.Outcome State Fault Refusal :=
  match s.fetch? with
  | none => .fault .noCommand
  | some c =>
    match decode c.word with
    | .refused r => .refused (refusalOf r)
    | .instr i => advanceOutcome (exec i (s.present c.answer))

/-- The state with a table row's word as the host's next command. The host answer issued with it is the byte now on
the host-answer port. Nothing else changes. -/
def State.withFetchWord (s : State) (nbits w : Nat) : State :=
  { s with program := placeIssue s.program s.index ⟨tableWord nbits w, s.hostAnswer⟩ }

end Sys2Proof.Machine
end

