-- ==== Sys2Proof/Machine/Assembly.lean ====
section
/-!
DEFINITION. The assembly syntax and the pseudo-instructions (30_encoding.md R88, R89): a program's text, a list of
lines of characters, to its instructions, and an instruction to its line. It is notation only (D26); no step reads it.
-/
namespace Sys2Proof.Machine

/-- The instructions an assembly command stands for; a pseudo-instruction expands to several, or none (R88, R89). -/
def expand : AsmCommand → List Instr
  | .init freq => [.init (BitVec.ofNat 32 freq)]
  | .wctl i b => [.wctl (BitVec.ofNat 8 i) (BitVec.ofNat 8 b)]
  | .wtc i k => [.wtc (BitVec.ofNat 8 i) (BitVec.ofNat 8 k)]
  | .setcb i on => [.setcb (BitVec.ofNat 8 i) on]
  | .trig i level => [.trig (BitVec.ofNat 8 i) level]
  | .tick => [.tick]
  | .setvec i v => [.setvec (BitVec.ofNat 8 i) (BitVec.ofNat 8 v)]
  | .getvec i => [.getvec (BitVec.ofNat 8 i)]
  | .sethnd on => [.sethnd on]
  | .haspend => [.haspend]
  | .ack => [.ack]
  | .ticks n => List.replicate n .tick
  | .rise i => [.trig (BitVec.ofNat 8 i) false, .trig (BitVec.ofNat 8 i) true]
  | .fall i => [.trig (BitVec.ofNat 8 i) true, .trig (BitVec.ofNat 8 i) false]

/-- A blank between words. -/
def isBlank (c : Char) : Bool := c == ' ' || c == '\t'

/-- The line without a comment, which ';' starts (R88). -/
def stripComment (line : List Char) : List Char := line.takeWhile (· != ';')

/-- The text without blanks at either end. -/
def trim (text : List Char) : List Char :=
  ((text.dropWhile isBlank).reverse.dropWhile isBlank).reverse

/-- The parts of a text between commas (R88). -/
def splitCommas : List Char → List (List Char)
  | [] => [[]]
  | c :: cs =>
    match splitCommas cs with
    | [] => [[c]]
    | part :: parts => if c == ',' then [] :: part :: parts else (c :: part) :: parts

/-- The value of a digit, hexadecimal included. -/
def digitValue (c : Char) : Option Nat :=
  let n := c.toNat
  if 48 ≤ n ∧ n ≤ 57 then some (n - 48)
  else if 65 ≤ n ∧ n ≤ 70 then some (n - 55)
  else if 97 ≤ n ∧ n ≤ 102 then some (n - 87)
  else none

/-- The number the digits spell in a base, after what was read before them. -/
def readDigits (base : Nat) (soFar : Nat) : List Char → Option Nat
  | [] => some soFar
  | c :: cs =>
    match digitValue c with
    | some d => if d < base then readDigits base (soFar * base + d) cs else none
    | none => none

/-- A number "in decimal or 0x hex" (R88). -/
def readNumber : List Char → Option Nat
  | [] => none
  | ['0', 'x'] => none
  | '0' :: 'x' :: digits => readDigits 16 0 digits
  | digits => readDigits 10 0 digits

/-- The operand `on|off` (R88). -/
def readSwitch (text : List Char) : Option Bool :=
  if text = ['o', 'n'] then some true else if text = ['o', 'f', 'f'] then some false else none

/-- The operand `1|0` (R88). -/
def readLevel (text : List Char) : Option Bool :=
  if text = ['1'] then some true else if text = ['0'] then some false else none

/-- One number operand. -/
def oneNumber (f : Nat → AsmCommand) : List (List Char) → Option AsmCommand
  | [x] => (readNumber x).map f
  | _ => none

/-- Two number operands. -/
def twoNumbers (f : Nat → Nat → AsmCommand) : List (List Char) → Option AsmCommand
  | [x, y] => (readNumber x).bind fun m => (readNumber y).map (f m)
  | _ => none

/-- A number operand, then one read otherwise. -/
def numberAnd (read : List Char → Option Bool) (f : Nat → Bool → AsmCommand) :
    List (List Char) → Option AsmCommand
  | [x, y] => (readNumber x).bind fun m => (read y).map (f m)
  | _ => none

/-- No operand. -/
def noOperand (c : AsmCommand) : List (List Char) → Option AsmCommand
  | [] => some c
  | _ => none

/-- One switch operand. -/
def oneSwitch (f : Bool → AsmCommand) : List (List Char) → Option AsmCommand
  | [x] => (readSwitch x).map f
  | _ => none

/-- The mnemonics of R88 and R89 with the operands each takes. -/
def syntaxTable : List (List Char × (List (List Char) → Option AsmCommand)) :=
  [ (['I', 'N', 'I', 'T'], oneNumber .init),
    (['W', 'C', 'T', 'L'], twoNumbers .wctl),
    (['W', 'T', 'C'], twoNumbers .wtc),
    (['S', 'E', 'T', 'C', 'B'], numberAnd readSwitch .setcb),
    (['T', 'R', 'I', 'G'], numberAnd readLevel .trig),
    (['T', 'I', 'C', 'K'], noOperand .tick),
    (['S', 'E', 'T', 'V', 'E', 'C'], twoNumbers .setvec),
    (['G', 'E', 'T', 'V', 'E', 'C'], oneNumber .getvec),
    (['S', 'E', 'T', 'H', 'N', 'D'], oneSwitch .sethnd),
    (['H', 'A', 'S', 'P', 'E', 'N', 'D'], noOperand .haspend),
    (['A', 'C', 'K'], noOperand .ack),
    (['T', 'I', 'C', 'K', 'S'], oneNumber .ticks),
    (['R', 'I', 'S', 'E'], oneNumber .rise),
    (['F', 'A', 'L', 'L'], oneNumber .fall) ]

/-- The operands of a command: none, or parts between commas. -/
def operandsOf (text : List Char) : List (List Char) :=
  if trim text = [] then [] else (splitCommas text).map trim

/-- One line's command, its operands checked against their fields; `none` where the line is not one (R88). -/
def readCommand (line : List Char) : Option AsmCommand :=
  let text := trim (stripComment line)
  let name := text.takeWhile (! isBlank ·)
  match syntaxTable.find? (·.1 == name) with
  | some row =>
    match row.2 (operandsOf (text.drop name.length)) with
    | some c => if c.wellFormed then some c else none
    | none => none
  | none => none

/-- The instructions of a program's lines, a line without a command passed over; `none` where a line will not do. -/
def assemble : List (List Char) → Option (List Instr)
  | [] => some []
  | line :: lines =>
    if trim (stripComment line) = [] then assemble lines
    else
      match readCommand line, assemble lines with
      | some c, some rest => some (expand c ++ rest)
      | _, _ => none

/-- A hexadecimal digit. -/
def hexDigit (d : BitVec 4) : Char :=
  if d.toNat < 10 then Char.ofNat (48 + d.toNat) else Char.ofNat (55 + d.toNat)

/-- The two hexadecimal digits of a byte. -/
def hexByte (b : Byte) : List Char := [hexDigit (b.extractLsb' 4 4), hexDigit (b.extractLsb' 0 4)]

/-- A byte operand as written. -/
def writeByte (b : Byte) : List Char := '0' :: 'x' :: hexByte b

/-- A frequency operand as written. -/
def writeFrequency (f : Frequency) : List Char :=
  '0' :: 'x' :: (hexByte (f.extractLsb' 24 8) ++ hexByte (f.extractLsb' 16 8) ++ hexByte (f.extractLsb' 8 8)
    ++ hexByte (f.extractLsb' 0 8))

/-- A switch operand as written. -/
def writeSwitch (on : Bool) : List Char := if on then ['o', 'n'] else ['o', 'f', 'f']

/-- A level operand as written. -/
def writeLevel (level : Bool) : List Char := if level then ['1'] else ['0']

/-- An instruction as R88 writes it, its numbers in hexadecimal. -/
def writeInstr : Instr → List Char
  | .init freq => ['I', 'N', 'I', 'T', ' '] ++ writeFrequency freq
  | .wctl idx b => ['W', 'C', 'T', 'L', ' '] ++ writeByte idx ++ [',', ' '] ++ writeByte b
  | .wtc idx k => ['W', 'T', 'C', ' '] ++ writeByte idx ++ [',', ' '] ++ writeByte k
  | .setcb idx on => ['S', 'E', 'T', 'C', 'B', ' '] ++ writeByte idx ++ [',', ' '] ++ writeSwitch on
  | .trig idx level => ['T', 'R', 'I', 'G', ' '] ++ writeByte idx ++ [',', ' '] ++ writeLevel level
  | .tick => ['T', 'I', 'C', 'K']
  | .setvec idx v => ['S', 'E', 'T', 'V', 'E', 'C', ' '] ++ writeByte idx ++ [',', ' '] ++ writeByte v
  | .getvec idx => ['G', 'E', 'T', 'V', 'E', 'C', ' '] ++ writeByte idx
  | .sethnd on => ['S', 'E', 'T', 'H', 'N', 'D', ' '] ++ writeSwitch on
  | .haspend => ['H', 'A', 'S', 'P', 'E', 'N', 'D']
  | .ack => ['A', 'C', 'K']

end Sys2Proof.Machine
end

