-- ==== Sys2Proof/Safety.lean ====
section
/-!
DEFINITION. The terms claims use: a channel's derived facts (10_state.md R39 to R41), the machine's invariant, when
an instruction makes a channel zero-cross (60_exceptions.md R143), and the run of several instructions in order
(20_memory.md R59). The block has no unsafe state (R140): a run is safe when it is not refused (R141).
-/
namespace Sys2Proof.Machine

/-- The decoded fields agree with control_register[7:4] (R39). -/
abbrev Channel.ConfigAgrees (c : Channel) : Prop :=
  c.interruptEnabled = c.controlRegister.getLsbD 7
    ∧ c.mode = (if c.controlRegister.getLsbD 6 then .counter else .timer)
    ∧ c.prescaler = (if c.controlRegister.getLsbD 5 then .div256 else .div16)
    ∧ c.triggerEdge = (if c.controlRegister.getLsbD 4 then .rising else .falling)

/-- The count is in 0..256, and in 1..256 when the channel runs (R40). -/
abbrev Channel.CountInRange (c : Channel) : Prop :=
  c.currentCount ≤ 256 ∧ (c.isRunning = true → 1 ≤ c.currentCount)

/-- The prescaler accumulator is in 0..255 (R41). -/
abbrev Channel.PhaseInRange (c : Channel) : Prop := c.triggerCount ≤ 255

/-- The derived facts of one channel (R39 to R41). -/
abbrev Channel.Sound (c : Channel) : Prop := c.ConfigAgrees ∧ c.CountInRange ∧ c.PhaseInRange

/-- The machine's invariant: every channel is sound, and the command index is within the command list or at its
end (R60). -/
abbrev State.Inv (s : State) : Prop :=
  (∀ i : ChannelId, (s.channel i).Sound) ∧ s.index ≤ s.program.length

/-- A TICK makes the channel count: Timer mode and running (R22, R30, R113). -/
def Channel.countsTick (c : Channel) : Bool := c.mode == .timer && c.isRunning

/-- A TICK takes the channel through zero: its accumulator reaches the divisor and its count is at most 1
(R110, R111, R113). -/
def Channel.tickCrosses (c : Channel) : Bool :=
  c.countsTick && decide (c.prescaler.divisor ≤ c.triggerCount + 1) && decide (c.currentCount ≤ 1)

/-- A TRIG with this level takes the channel through zero (R110 to R112, R115). -/
def Channel.trigCrosses (c : Channel) (level : Bool) : Bool :=
  c.mode == .counter && c.isRunning && c.seesEdge level && decide (c.currentCount ≤ 1)

/-- The instruction makes channel j zero-cross: a TICK, or a TRIG addressed to it; no other does (R143). -/
def zeroCrosses (i : Instr) (s : State) (j : ChannelId) : Bool :=
  match i with
  | .init _ => false
  | .wctl _ _ => false
  | .wtc _ _ => false
  | .setcb _ _ => false
  | .trig idx level => idx.toNat == j.val && (s.channel j).trigCrosses level
  | .tick => (s.channel j).tickCrosses
  | .setvec _ _ => false
  | .getvec _ => false
  | .sethnd _ => false
  | .haspend => false
  | .ack => false

/-- Instructions run one after the other, each from the state the previous one left; the first stop ends the run
(R59, R141). -/
def execAll : List Instr → State → Host.Outcome State Fault Refusal
  | [], s => .next s
  | i :: is, s =>
    match exec i s with
    | .next s' => execAll is s'
    | .fault f => .fault f
    | .refused r => .refused r

/-- What the host issued stays as it was: the command list, the command index and the host-answer port. -/
abbrev State.SameHost (s t : State) : Prop :=
  t.program = s.program ∧ t.index = s.index ∧ t.hostAnswer = s.hostAnswer

/-- Instructions run one after the other as the machine's steps run them: each with the host's answer for its step
presented, and the command index advanced after it (R16, R60). -/
def execIssued : List (Instr × Byte) → State → Host.Outcome State Fault Refusal
  | [], s => .next s
  | (i, answer) :: rest, s =>
    match exec i { s with hostAnswer := answer } with
    | .next s' => execIssued rest { s' with index := s'.index + 1 }
    | .fault f => .fault f
    | .refused r => .refused r

/-- A run of commands is safe when it ends in a state: no command of it was refused (R141). -/
def runIsSafe (is : List Instr) (s : State) : Bool :=
  match execAll is s with
  | .next _ => true
  | .fault _ => false
  | .refused _ => false

end Sys2Proof.Machine
end

