-- ==== Sys2Proof/Certificates/Slice0/Obligations.lean ====
section
/-!
DEFINITION. The statements for the provers. A statement whose docstring says "the spec's decision" rests there on a
decision of 92_eei_decisions.md or an inference the spec marks as its own, and is listed as derived.
-/
open Sys2Proof Sys2Proof.Machine

/-! ### Initialisation, and which commands run -/

/-- INIT resets the whole block and records the frequency, from every state, initialised or not (43_controller.md).
The values but the five the source names are the spec's decision D6; that INIT may come again is D7. -/
def Obligations.InitResetsTheWholeBlock : Prop :=
  ∀ (freq : Frequency) (s : State), ∃ t, exec (.init freq) s = .next t
    ∧ (∀ j : ChannelId, t.channel j =
        { mode := .timer, prescaler := .div16, triggerEdge := .falling, interruptEnabled := false,
          interruptVector := 0x00, controlRegister := 0x00, timeConstant := 0x00, currentCount := 0,
          isRunning := false, interruptPending := false, lastTriggerState := false, triggerCount := 0,
          cbInstalled := false })
    ∧ t.ctl = { systemClockFrequency := freq, handlerInstalled := false, initialised := true }
    ∧ s.SameHost t ∧ t.response = .none ∧ t.events = []

/-- The model's reset state is the block's state after INIT, but for the frequency (the model's choice, log entry 1). -/
def Obligations.ResetStateIsTheStateAfterInit : Prop :=
  ∀ (freq : Frequency) (s : State), ∃ t, exec (.init freq) s = .next t
    ∧ t.ch = State.reset.ch ∧ t.ctl = { State.reset.ctl with systemClockFrequency := freq }
    ∧ t.response = State.reset.response ∧ t.events = State.reset.events

/-- Before the first INIT every other command is refused, and INIT is accepted (the spec's decision D8). -/
def Obligations.BeforeInitOnlyInitRuns : Prop :=
  ∀ s : State, s.ctl.initialised = false →
    (∀ i : Instr, (∀ freq, i ≠ .init freq) → exec i s = .refused .beforeInit)
    ∧ ∀ freq, ∃ t, exec (.init freq) s = .next t ∧ t.ctl.initialised = true

/-- An initialised block takes every command, and stays initialised (60_exceptions.md; the spec's decision D21). -/
def Obligations.InitialisedBlockTakesEveryCommand : Prop :=
  ∀ (i : Instr) (s : State), s.ctl.initialised = true →
    ∃ t, exec i s = .next t ∧ t.ctl.initialised = true

/-- A step stops only for want of a command, or for one of the three refusal reasons, each where it applies, the
decoder's first (the spec's decisions D2 and D8; that a missing command is a fault is the model's choice, log entry 5). -/
def Obligations.StepStopsOnlyForNamedReasons : Prop :=
  ∀ s : State,
    (∀ f, step s = .fault f ↔ (f = .noCommand ∧ s.program[s.index]? = none))
    ∧ (step s = .refused .unassignedOp ↔
        ∃ c, s.program[s.index]? = some c ∧ decode c.word = .refused .unassignedOp)
    ∧ (step s = .refused .reservedBits ↔
        ∃ c, s.program[s.index]? = some c ∧ decode c.word = .refused .reservedBits)
    ∧ (step s = .refused .beforeInit ↔
        ∃ c i, s.program[s.index]? = some c ∧ decode c.word = .instr i
          ∧ s.ctl.initialised = false ∧ ∀ freq, i ≠ .init freq)
    ∧ ∀ mnemonic, step s ≠ .refused (.notModelled mnemonic)

/-- Every run of commands that begins with INIT is safe, whatever the commands and the state before it: no command of it
is refused (60_exceptions.md; the spec's decisions D7 and D21). -/
def Obligations.EveryRunFromInitIsSafe : Prop :=
  ∀ (freq : Frequency) (cmds : List Instr) (s : State), runIsSafe (.init freq :: cmds) s = true

/-! ### The step -/

/-- A step runs the decoded instruction with the host's answer for that step presented, then advances the index; a stop of
the instruction is the step's stop. -/
def Obligations.StepRunsTheDecodedInstruction : Prop :=
  ∀ (s : State) (c : Issue) (i : Instr), s.program[s.index]? = some c → decode c.word = .instr i →
    step s =
      match exec i { s with hostAnswer := c.answer } with
      | .next t => .next { t with index := t.index + 1 }
      | .fault f => .fault f
      | .refused r => .refused r

/-- The command index advances by exactly one in every completed step, and the command list is never written
(20_memory.md; the spec's decisions D24 and D25). -/
def Obligations.StepAdvancesTheIndexByOne : Prop :=
  ∀ s t : State, step s = .next t → t.index = s.index + 1 ∧ t.program = s.program

/-- Running a command list is running its instructions in order, each with its own host answer (20_memory.md; D18). -/
def Obligations.RunOfCommandListRunsItsInstructions : Prop :=
  ∀ (cmds : List (Instr × Byte)) (before after : List Issue) (s : State),
    s.program = before ++ cmds.map (fun c => ⟨encode c.1, c.2⟩) ++ after → s.index = before.length →
    Sys2Proof.core.run cmds.length s = execIssued cmds s

/-! ### Encoding -/

/-- Words of 95_test_vectors.md, one at least of every family, decode to their commands; others are refused. -/
def Obligations.SampleWordsDecode : Prop :=
  decode 0x0100003D0900 = .instr (.init 4000000)
    ∧ decode 0x020300000087 = .instr (.wctl 3 0x87)
    ∧ decode 0x030000000002 = .instr (.wtc 0 2)
    ∧ decode 0x040100000001 = .instr (.setcb 1 true)
    ∧ decode 0x050100000000 = .instr (.trig 1 false)
    ∧ decode 0x060000000000 = .instr .tick
    ∧ decode 0x07030000004E = .instr (.setvec 3 0x4E)
    ∧ decode 0x090000000001 = .instr (.sethnd true)
    ∧ decode 0x0A0000000000 = .instr .haspend
    ∧ decode 0x0B0000000000 = .instr .ack
    ∧ decode 0x020000000186 = .refused .reservedBits
    ∧ decode 0x060100000000 = .refused .reservedBits
    ∧ decode 0x0C0000000000 = .refused .unassignedOp

/-- Decoding an instruction's word gives the instruction back, with every operand at every value. -/
def Obligations.DecodeInvertsEncode : Prop :=
  ∀ i : Instr, decode (encode i) = .instr i

/-- A word that decodes is the word of the instruction it decodes to: no instruction has two words. -/
def Obligations.EncodeInvertsDecode : Prop :=
  ∀ (w : CommandWord) (i : Instr), decode w = .instr i → encode i = w

/-- The decoder agrees with spec/opcode_table.json: a word it reads is of exactly one row, the row of the instruction's
mnemonic, and a word it refuses is of none; the words it reads are the well-formed ones. -/
def Obligations.DecodeAgreesWithOpcodeTable : Prop :=
  ∀ w : CommandWord,
    (∀ i, decode w = .instr i → (opcodeTable.filter (·.accepts w)).map (·.mnemonic) = [i.mnemonic])
    ∧ (∀ r, decode w = .refused r → opcodeTable.filter (·.accepts w) = [])
    ∧ (wordWellFormed w = true ↔ ∃ i, decode w = .instr i)

/-- When the decoder refuses, and for which reason, in terms of the three fields (the spec's decision D2). -/
def Obligations.DecoderRefusesExactlyAsNamed : Prop :=
  ∀ (op idx : BitVec 8) (data : BitVec 32),
    (decode (op ++ idx ++ data) = .refused .unassignedOp ↔ (op = 0x00 ∨ 0x0C ≤ op.toNat))
    ∧ (decode (op ++ idx ++ data) = .refused .reservedBits ↔
        (op ∈ [0x01#8, 0x06#8, 0x09#8, 0x0A#8, 0x0B#8] ∧ idx ≠ 0)
          ∨ (op ∈ [0x02#8, 0x03#8, 0x07#8] ∧ 2 ^ 8 ≤ data.toNat)
          ∨ (op ∈ [0x04#8, 0x05#8, 0x09#8] ∧ 2 ≤ data.toNat)
          ∨ (op ∈ [0x06#8, 0x08#8, 0x0A#8, 0x0B#8] ∧ data ≠ 0))

/-- Every instruction, written in the assembly syntax, assembles to itself alone (the spec's decision D26). -/
def Obligations.AssemblerReadsWhatItWrites : Prop :=
  ∀ i : Instr, assemble [writeInstr i] = some [i]

/-! ### Channel configuration -/

/-- The reload value of a time constant: 0 encodes 256, and the range is 1 to 256. -/
def Obligations.ReloadOfTimeConstant : Prop :=
  ∀ k : Byte, reload k = (if k = 0x00 then 256 else k.toNat) ∧ 1 ≤ reload k ∧ reload k ≤ 256

/-- WCTL's whole effect and frame, for every index and every byte. That it leaves the prescaler accumulator is the
spec's decision D4 (log entry 3). -/
def Obligations.WctlWritesTheControlWord : Prop :=
  ∀ (idx b : Byte) (s : State), s.ctl.initialised = true →
    ∃ t, exec (.wctl idx b) s = .next t
      ∧ (∀ j : ChannelId, t.channel j =
          if idx.toNat = j.val then
            { s.channel j with
              controlRegister := b
              interruptEnabled := b.getLsbD 7
              mode := if b.getLsbD 6 then .counter else .timer
              prescaler := if b.getLsbD 5 then .div256 else .div16
              triggerEdge := if b.getLsbD 4 then .rising else .falling
              currentCount := if b.getLsbD 1 then 0 else (s.channel j).currentCount
              isRunning := (s.channel j).isRunning && !b.getLsbD 1 && !b.getLsbD 2
              interruptPending := (s.channel j).interruptPending && !b.getLsbD 1 }
          else s.channel j)
      ∧ t.ctl = s.ctl ∧ s.SameHost t ∧ t.response = .none ∧ t.events = []

/-- Writing one control byte twice leaves the same state as writing it once (40_channel_config.md, WCTL, case (a)). -/
def Obligations.WctlTwiceIsWctlOnce : Prop :=
  ∀ (idx b : Byte) (s : State), s.ctl.initialised = true →
    ∃ t, exec (.wctl idx b) s = .next t ∧ exec (.wctl idx b) t = .next t

/-- WTC's whole effect and frame: it loads the constant, starts the channel at the reload value and clears the pending
bit. That it leaves the prescaler accumulator is the spec's decision D4 (log entry 3). -/
def Obligations.WtcLoadsAndStartsTheChannel : Prop :=
  ∀ (idx k : Byte) (s : State), s.ctl.initialised = true →
    ∃ t, exec (.wtc idx k) s = .next t
      ∧ (∀ j : ChannelId, t.channel j =
          if idx.toNat = j.val then
            { s.channel j with
              timeConstant := k
              currentCount := if k = 0x00 then 256 else k.toNat
              isRunning := true
              interruptPending := false }
          else s.channel j)
      ∧ t.ctl = s.ctl ∧ s.SameHost t ∧ t.response = .none ∧ t.events = []

/-- SETVEC: its encoding, its refusal, its whole effect and frame. -/
def Obligations.SetvecWritesOneVector : Prop :=
  (∀ (idx v : Byte), decode (0x07#8 ++ idx ++ 0#24 ++ v) = .instr (.setvec idx v))
  ∧ (∀ (idx v : Byte) (high : BitVec 24), high ≠ 0 →
      decode (0x07#8 ++ idx ++ high ++ v) = .refused .reservedBits)
  ∧ ∀ (idx v : Byte) (s : State), s.ctl.initialised = true →
    ∃ t, exec (.setvec idx v) s = .next t
      ∧ (∀ j : ChannelId, t.channel j =
          if idx.toNat = j.val then { s.channel j with interruptVector := v } else s.channel j)
      ∧ t.ctl = s.ctl ∧ s.SameHost t ∧ t.response = .none ∧ t.events = []

/-- GETVEC answers the stored vector, or 0x00 for an index that is not valid, and changes nothing. That every vector is
0x00 right after INIT is the spec's decision D6 and is not part of this statement. -/
def Obligations.GetvecAnswersTheStoredVector : Prop :=
  ∀ (idx : Byte) (s : State), s.ctl.initialised = true →
    (∀ j : ChannelId, idx.toNat = j.val → exec (.getvec idx) s =
        .next { s with response := .byte (s.channel j).interruptVector, events := [] })
    ∧ (4 ≤ idx.toNat → exec (.getvec idx) s = .next { s with response := .byte 0x00, events := [] })

/-- SETCB sets or clears the channel's install flag and nothing else (the spec's decisions D11 and D12). -/
def Obligations.SetcbSetsTheInstallFlag : Prop :=
  ∀ (idx : Byte) (install : Bool) (s : State), s.ctl.initialised = true →
    ∃ t, exec (.setcb idx install) s = .next t
      ∧ (∀ j : ChannelId, t.channel j =
          if idx.toNat = j.val then { s.channel j with cbInstalled := install } else s.channel j)
      ∧ t.ctl = s.ctl ∧ s.SameHost t ∧ t.response = .none ∧ t.events = []

/-- An operation whose index is not valid changes no state and emits no event; the accessor answers 0 (20_memory.md;
that no error is reported is the spec's decision D23). -/
def Obligations.OutOfRangeIndexChangesNothing : Prop :=
  ∀ (i : Instr) (idx : Byte) (s : State), s.ctl.initialised = true → i.index? = some idx → 4 ≤ idx.toNat →
    exec i s = .next { s with response := (if i = .getvec idx then .byte 0x00 else .none), events := [] }

/-- An operation addressed to another channel neither writes a channel nor reads it: changing that channel before the
operation changes the outcome by that channel alone. -/
def Obligations.ChannelsAreIndependent : Prop :=
  ∀ (i : Instr) (idx : Byte) (j : ChannelId) (s t : State), i.index? = some idx → idx.toNat ≠ j.val →
    exec i s = .next t →
      t.channel j = s.channel j ∧ ∀ c : Channel, exec i (s.setChannel j c) = .next (t.setChannel j c)

/-! ### Counting -/

/-- The zero-crossing of one channel: reload, latch the interrupt if enabled, emit the callback event if installed. -/
def Obligations.ZeroCrossingReloadsLatchesAndNotifies : Prop :=
  ∀ (s : State) (i : ChannelId),
    (∀ j : ChannelId, (s.zeroCrossing i).channel j =
      if j = i then
        { s.channel i with
          currentCount := reload (s.channel i).timeConstant
          interruptPending := if (s.channel i).interruptEnabled then true else (s.channel i).interruptPending }
      else s.channel j)
    ∧ (s.zeroCrossing i).events = s.events ++ (if (s.channel i).cbInstalled then [.cb i] else [])
    ∧ (s.zeroCrossing i).ctl = s.ctl ∧ s.SameHost (s.zeroCrossing i)
    ∧ (s.zeroCrossing i).response = s.response

/-- The count-down of one channel: a decrement with a floor at 0 and a zero-crossing at 0; the count it leaves is never
0, and never one below 0. -/
def Obligations.CountDownFloorsAndNeverLeavesZero : Prop :=
  ∀ (s : State) (i : ChannelId),
    (1 < (s.channel i).currentCount → s.countDown i =
      s.setChannel i { s.channel i with currentCount := (s.channel i).currentCount - 1 })
    ∧ ((s.channel i).currentCount ≤ 1 → s.countDown i =
        (s.setChannel i { s.channel i with currentCount := 0 }).zeroCrossing i)
    ∧ 1 ≤ ((s.countDown i).channel i).currentCount

/-- The edge detector: a low-to-high change with Rising selected, a high-to-low change with Falling selected, and
nothing else; a repeated level is never an edge. -/
def Obligations.EdgeDetectorSeesTheSelectedChange : Prop :=
  ∀ (c : Channel) (level : Bool),
    (c.seesEdge level = true ↔
      (c.triggerEdge = .rising ∧ c.lastTriggerState = false ∧ level = true)
        ∨ (c.triggerEdge = .falling ∧ c.lastTriggerState = true ∧ level = false))
    ∧ (level = c.lastTriggerState → c.seesEdge level = false)

/-- TICK's whole effect and frame on every channel (41_counting.md; that the accumulator never wraps is the spec's
decision D5). Its events are the subject of `CallbackEventsAreTheZeroCrossings`. -/
def Obligations.TickCountsRunningTimerChannels : Prop :=
  ∀ s : State, s.ctl.initialised = true →
    ∃ t, exec .tick s = .next t
      ∧ (∀ j : ChannelId, t.channel j =
          if (s.channel j).mode = .timer ∧ (s.channel j).isRunning = true then
            if (s.channel j).triggerCount + 1 < (if (s.channel j).prescaler = .div256 then 256 else 16) then
              { s.channel j with triggerCount := (s.channel j).triggerCount + 1 }
            else if 1 < (s.channel j).currentCount then
              { s.channel j with triggerCount := 0, currentCount := (s.channel j).currentCount - 1 }
            else
              { s.channel j with
                triggerCount := 0
                currentCount := reload (s.channel j).timeConstant
                interruptPending := (s.channel j).interruptEnabled || (s.channel j).interruptPending }
          else s.channel j)
      ∧ t.ctl = s.ctl ∧ s.SameHost t ∧ t.response = .none

/-- TRIG: its encoding, its refusal, its whole effect, frame and events: a running Counter-mode channel counts down on
its selected edge, and the level is recorded in every mode (90_conflicts.md C1). -/
def Obligations.TrigCountsSelectedEdges : Prop :=
  (∀ (idx : Byte) (level : Bool),
      decode (0x05#8 ++ idx ++ 0#31 ++ BitVec.ofBool level) = .instr (.trig idx level))
  ∧ (∀ (idx : Byte) (level : Bool) (high : BitVec 31), high ≠ 0 →
      decode (0x05#8 ++ idx ++ high ++ BitVec.ofBool level) = .refused .reservedBits)
  ∧ ∀ (idx : Byte) (level : Bool) (s : State), s.ctl.initialised = true →
    ∃ t, exec (.trig idx level) s = .next t
      ∧ (∀ j : ChannelId, t.channel j =
          if idx.toNat = j.val then
            if (s.channel j).mode = .counter ∧ (s.channel j).isRunning = true
                ∧ (s.channel j).seesEdge level = true then
              if 1 < (s.channel j).currentCount then
                { s.channel j with
                  currentCount := (s.channel j).currentCount - 1
                  lastTriggerState := level }
              else
                { s.channel j with
                  currentCount := reload (s.channel j).timeConstant
                  interruptPending := (s.channel j).interruptEnabled || (s.channel j).interruptPending
                  lastTriggerState := level }
            else { s.channel j with lastTriggerState := level }
          else s.channel j)
      ∧ t.ctl = s.ctl ∧ s.SameHost t ∧ t.response = .none ∧ t.events.length ≤ 1
      ∧ ∀ j : ChannelId, .cb j ∈ t.events ↔
          (idx.toNat = j.val ∧ (s.channel j).trigCrosses level = true ∧ (s.channel j).cbInstalled = true)

/-- The callback events of any operation but ACK are those of the channels that cross zero with a callback installed, in
ascending order, whether or not the channel's interrupt is enabled; ACK emits no callback event. -/
def Obligations.CallbackEventsAreTheZeroCrossings : Prop :=
  ∀ (i : Instr) (s t : State), exec i s = .next t →
    (i ≠ .ack → t.events =
      ([0, 1, 2, 3].filter fun j => zeroCrosses i s j && (s.channel j).cbInstalled).map .cb)
    ∧ (i = .ack → ∀ j : ChannelId, Event.cb j ∉ t.events)

/-- The whole table of what sets, clears and keeps a channel's pending bit. -/
def Obligations.PendingLatchTable : Prop :=
  ∀ (i : Instr) (s t : State) (j : ChannelId), exec i s = .next t →
    (t.channel j).interruptPending =
      match i with
      | .init _ => false
      | .wctl idx b => (s.channel j).interruptPending && !(idx.toNat == j.val && b.getLsbD 1)
      | .wtc idx _ => (s.channel j).interruptPending && !(idx.toNat == j.val)
      | .tick => (s.channel j).interruptPending || ((s.channel j).interruptEnabled && zeroCrosses .tick s j)
      | .trig idx level =>
          (s.channel j).interruptPending || ((s.channel j).interruptEnabled && zeroCrosses (.trig idx level) s j)
      | .ack =>
          (s.channel j).interruptPending
            && !(decide ((s.channel j).requests = true ∧ ∀ k : ChannelId, k < j → (s.channel k).requests = false))
      | .setcb _ _ => (s.channel j).interruptPending
      | .setvec _ _ => (s.channel j).interruptPending
      | .getvec _ => (s.channel j).interruptPending
      | .sethnd _ => (s.channel j).interruptPending
      | .haspend => (s.channel j).interruptPending

/-- What starts and stops a channel: only WTC to it starts it, only WCTL to it with bit 1 or bit 2 set and INIT stop it;
no TICK and no TRIG changes the count of a stopped channel, and every channel is stopped after INIT. -/
def Obligations.RunningFlagTable : Prop :=
  ∀ (i : Instr) (s t : State) (j : ChannelId), exec i s = .next t →
    ((t.channel j).isRunning = true ↔
      (∃ idx k, i = .wtc idx k ∧ idx.toNat = j.val)
        ∨ ((s.channel j).isRunning = true ∧ (∀ freq, i ≠ .init freq)
            ∧ ∀ idx b, i = .wctl idx b → idx.toNat = j.val → b.getLsbD 1 = false ∧ b.getLsbD 2 = false))
    ∧ ((s.channel j).isRunning = false → i = .tick ∨ (∃ idx level, i = .trig idx level) →
        (t.channel j).currentCount = (s.channel j).currentCount)

/-- The prescaler accumulator is written only by TICK and INIT (the spec's decision D4, log entry 3), and by TICK only
for a running Timer-mode channel. -/
def Obligations.PrescalerPhaseIsWrittenOnlyByTickAndInit : Prop :=
  ∀ (i : Instr) (s t : State) (j : ChannelId), exec i s = .next t → (∀ freq, i ≠ .init freq) →
    (i = .tick → (s.channel j).mode = .counter ∨ (s.channel j).isRunning = false) →
    (t.channel j).triggerCount = (s.channel j).triggerCount

/-- Every remaining field keeps its value but where the operation 10_state.md names for it writes it: the vector by
SETVEC, the control byte and the four fields it decodes to by WCTL, the time constant by WTC, the edge memory by TRIG, the
install flags by SETCB and SETHND, each addressed to the channel, and all of them by INIT (D6, D12, D13). -/
def Obligations.EveryFieldHasItsOwnWriters : Prop :=
  ∀ (i : Instr) (s t : State) (j : ChannelId), exec i s = .next t → (∀ freq, i ≠ .init freq) →
    ((∀ idx v, i = .setvec idx v → idx.toNat ≠ j.val) →
      (t.channel j).interruptVector = (s.channel j).interruptVector)
    ∧ ((∀ idx b, i = .wctl idx b → idx.toNat ≠ j.val) →
        (t.channel j).controlRegister = (s.channel j).controlRegister
        ∧ (t.channel j).interruptEnabled = (s.channel j).interruptEnabled
        ∧ (t.channel j).mode = (s.channel j).mode
        ∧ (t.channel j).prescaler = (s.channel j).prescaler
        ∧ (t.channel j).triggerEdge = (s.channel j).triggerEdge)
    ∧ ((∀ idx k, i = .wtc idx k → idx.toNat ≠ j.val) →
        (t.channel j).timeConstant = (s.channel j).timeConstant)
    ∧ ((∀ idx level, i = .trig idx level → idx.toNat ≠ j.val) →
        (t.channel j).lastTriggerState = (s.channel j).lastTriggerState)
    ∧ ((∀ idx install, i = .setcb idx install → idx.toNat ≠ j.val) →
        (t.channel j).cbInstalled = (s.channel j).cbInstalled)
    ∧ ((∀ install, i ≠ .sethnd install) → t.ctl.handlerInstalled = s.ctl.handlerInstalled)
    ∧ t.ctl.systemClockFrequency = s.ctl.systemClockFrequency
    ∧ t.ctl.initialised = s.ctl.initialised

/-- The Timer-mode period over consecutive TICKs, from phase 0 and a full count: the count falls once every P TICKs, and
the channel crosses zero exactly at the multiples of P*R (an inference the spec marks as its own: 41_counting.md R114,
70_reset_and_hazards.md R175). -/
def Obligations.TimerChannelIsPeriodic : Prop :=
  ∀ (s : State) (j : ChannelId), s.ctl.initialised = true →
    (s.channel j).mode = .timer → (s.channel j).isRunning = true → (s.channel j).triggerCount = 0 →
    (s.channel j).currentCount = reload (s.channel j).timeConstant →
    ∀ n : Nat, ∃ t, execAll (List.replicate n .tick) s = .next t
      ∧ t.channel j =
          { s.channel j with
            triggerCount := n % (s.channel j).prescaler.divisor
            currentCount := reload (s.channel j).timeConstant
              - n / (s.channel j).prescaler.divisor % reload (s.channel j).timeConstant
            interruptPending := (s.channel j).interruptPending || ((s.channel j).interruptEnabled
              && decide ((s.channel j).prescaler.divisor * reload (s.channel j).timeConstant ≤ n)) }
      ∧ (0 < n → (Event.cb j ∈ t.events ↔ (s.channel j).cbInstalled = true
          ∧ n % ((s.channel j).prescaler.divisor * reload (s.channel j).timeConstant) = 0))

/-- The Counter-mode period: n pairs of a low and a high level, with Rising selected, count exactly n edges, crossing
zero at every multiple of the reload value; a high level repeated after that counts nothing. That the period is the reload
value in detected edges is an inference the spec marks as its own (70_reset_and_hazards.md R175); the Falling edge is
covered step by step by `TrigCountsSelectedEdges`. -/
def Obligations.CounterChannelCountsRisingPairs : Prop :=
  ∀ (s : State) (idx : Byte) (j : ChannelId), s.ctl.initialised = true → idx.toNat = j.val →
    (s.channel j).mode = .counter → (s.channel j).triggerEdge = .rising → (s.channel j).isRunning = true →
    (s.channel j).currentCount = reload (s.channel j).timeConstant →
    ∀ n : Nat, 0 < n →
      ∃ t, execAll (List.replicate n [.trig idx false, .trig idx true]).flatten s = .next t
        ∧ t.channel j =
            { s.channel j with
              currentCount := reload (s.channel j).timeConstant - n % reload (s.channel j).timeConstant
              lastTriggerState := true
              interruptPending := (s.channel j).interruptPending || ((s.channel j).interruptEnabled
                && decide (reload (s.channel j).timeConstant ≤ n)) }
        ∧ (Event.cb j ∈ t.events ↔ (s.channel j).cbInstalled = true
            ∧ n % reload (s.channel j).timeConstant = 0)
        ∧ ∀ m, ∃ u, execAll (List.replicate m (.trig idx true)) t = .next u ∧ u.channel j = t.channel j

/-- After WTC to a Timer-mode channel its first decrement comes after max(1, P - phase) TICKs, the phase being what the
accumulator held (70_reset_and_hazards.md; an inference the spec marks as its own, on its decision D4, log entry 3). -/
def Obligations.FirstDecrementAfterRestart : Prop :=
  ∀ (s : State) (idx k : Byte) (j : ChannelId), s.ctl.initialised = true → idx.toNat = j.val →
    (s.channel j).mode = .timer →
    (∀ n, n < max 1 ((s.channel j).prescaler.divisor - (s.channel j).triggerCount) →
      ∃ t, execAll (.wtc idx k :: List.replicate n .tick) s = .next t
        ∧ (t.channel j).currentCount = reload k ∧ (t.channel j).triggerCount = (s.channel j).triggerCount + n)
    ∧ ∃ t, execAll (.wtc idx k :: List.replicate
            (max 1 ((s.channel j).prescaler.divisor - (s.channel j).triggerCount)) .tick) s = .next t
        ∧ (t.channel j).triggerCount = 0
        ∧ (t.channel j).currentCount = (if reload k = 1 then 1 else reload k - 1)

/-! ### The interrupt arbiter -/

/-- HASPEND: its encoding, its refusal, and its answer, the OR of the four requests; it changes nothing else, and it
answers false right after INIT. -/
def Obligations.HaspendAnswersTheOrOfRequests : Prop :=
  decode 0x0A0000000000 = .instr .haspend
  ∧ (∀ (idx : BitVec 8) (data : BitVec 32), (idx ≠ 0 ∨ data ≠ 0) →
      decode (0x0A#8 ++ idx ++ data) = .refused .reservedBits)
  ∧ (∀ s : State, s.ctl.initialised = true →
      ∃ answer, exec .haspend s = .next { s with response := .bit answer, events := [] }
        ∧ (answer = true ↔ ∃ j : ChannelId,
            (s.channel j).interruptEnabled = true ∧ (s.channel j).interruptPending = true))
  ∧ ∀ (freq : Frequency) (s : State), ∃ t u, exec (.init freq) s = .next t ∧ exec .haspend t = .next u
      ∧ u.response = .bit false

/-- ACK with a request: it takes the lowest-numbered requesting channel, clears that channel's pending bit and nothing
else, and answers with the handler's byte, invoking it, or with the stored vector. That the handler's byte is any byte
the host answers is the spec's decision D10 (log entry 2). -/
def Obligations.AckTakesTheLowestRequestingChannel : Prop :=
  ∀ (s : State) (i : ChannelId), s.ctl.initialised = true →
    (s.channel i).interruptEnabled = true → (s.channel i).interruptPending = true →
    (∀ j : ChannelId, j < i → (s.channel j).interruptEnabled = false ∨ (s.channel j).interruptPending = false) →
    ∃ t, exec .ack s = .next t
      ∧ (∀ j : ChannelId, t.channel j =
          if j = i then { s.channel i with interruptPending := false } else s.channel j)
      ∧ t.ctl = s.ctl ∧ s.SameHost t
      ∧ t.response = .byte (if s.ctl.handlerInstalled then s.hostAnswer else (s.channel i).interruptVector)
      ∧ t.events = (if s.ctl.handlerInstalled then [.hnd i] else [])

/-- ACK answers 0x00 with no mutation when no channel requests, and also answers 0x00 when the selected channel's vector,
or the handler's result, is 0x00. -/
def Obligations.AckAnswersZeroInBothCases : Prop :=
  ∀ s : State, s.ctl.initialised = true →
    ((∀ j : ChannelId, (s.channel j).requests = false) →
      exec .ack s = .next { s with response := .byte 0x00, events := [] })
    ∧ ∀ i : ChannelId, (s.channel i).requests = true →
        (∀ j : ChannelId, j < i → (s.channel j).requests = false) →
        (if s.ctl.handlerInstalled then s.hostAnswer else (s.channel i).interruptVector) = 0x00 →
        ∃ t, exec .ack s = .next t ∧ t.response = .byte 0x00

/-- As many ACKs as channels request acknowledge them all: every enabled channel's pending bit is then clear, every
disabled one's is kept, nothing else of any channel changes, and HASPEND answers false. -/
def Obligations.AcksDrainAllRequests : Prop :=
  ∀ s : State, s.ctl.initialised = true →
    ∃ t u, execAll (List.replicate (channelIds.filter fun j => (s.channel j).requests).length .ack) s = .next t
      ∧ (∀ j : ChannelId, t.channel j =
          { s.channel j with
            interruptPending := (s.channel j).interruptPending && !(s.channel j).interruptEnabled })
      ∧ exec .haspend t = .next u ∧ u.response = .bit false

/-- SETHND sets or clears the handler flag and nothing else (the spec's decisions D11 and D12). -/
def Obligations.SethndSetsTheHandlerFlag : Prop :=
  ∀ (install : Bool) (s : State), s.ctl.initialised = true →
    ∃ t, exec (.sethnd install) s = .next t
      ∧ t.ctl = { s.ctl with handlerInstalled := install }
      ∧ (∀ j : ChannelId, t.channel j = s.channel j) ∧ s.SameHost t ∧ t.response = .none ∧ t.events = []

/-- Clearing the enable bit hides a pending interrupt without clearing it, and setting it again makes the request
visible at once; WTC, or a control byte with bit 1 set, discards it (an inference the spec marks as its own). -/
def Obligations.DisabledPendingInterruptReappears : Prop :=
  ∀ (s : State) (idx off on k : Byte) (j : ChannelId), s.ctl.initialised = true → idx.toNat = j.val →
    (s.channel j).interruptPending = true →
    off.getLsbD 7 = false → off.getLsbD 1 = false → on.getLsbD 7 = true → on.getLsbD 1 = false →
    ∃ t u v w, exec (.wctl idx off) s = .next t ∧ (t.channel j).requests = false
      ∧ exec (.wctl idx on) t = .next u ∧ (u.channel j).requests = true
      ∧ exec (.wtc idx k) t = .next v ∧ exec (.wctl idx on) v = .next w ∧ (w.channel j).requests = false
      ∧ ∀ b : Byte, b.getLsbD 1 = true → ∃ x y, exec (.wctl idx b) t = .next x
          ∧ exec (.wctl idx on) x = .next y ∧ (y.channel j).requests = false

/-- GETVEC and HASPEND change no state and give the same answer when repeated; ACK answers a byte and clears at most one
pending bit; every other operation answers nothing. -/
def Obligations.ReadsAndTheirSideEffects : Prop :=
  (∀ (idx : Byte) (s : State), s.ctl.initialised = true → ∃ t, exec (.getvec idx) s = .next t
      ∧ t.ch = s.ch ∧ t.ctl = s.ctl ∧ exec (.getvec idx) t = .next t)
  ∧ (∀ s : State, s.ctl.initialised = true → ∃ t, exec .haspend s = .next t
      ∧ t.ch = s.ch ∧ t.ctl = s.ctl ∧ exec .haspend t = .next t)
  ∧ (∀ s : State, s.ctl.initialised = true → ∃ t b, exec .ack s = .next t ∧ t.response = .byte b ∧ t.ctl = s.ctl
      ∧ ((t.ch = s.ch ∧ ∀ j : ChannelId, (s.channel j).requests = false)
          ∨ ∃ i : ChannelId, (s.channel i).requests = true
              ∧ t.ch = s.ch.set i { s.channel i with interruptPending := false }))
  ∧ ∀ (i : Instr) (s t : State), (∀ idx, i ≠ .getvec idx) → i ≠ .haspend → i ≠ .ack → exec i s = .next t →
      t.response = .none

/-! ### What nothing depends on -/

/-- The clock frequency changes nothing: an operation does the same whatever it is, and keeps it (10_state.md; D13). -/
def Obligations.ClockFrequencyNeverMatters : Prop :=
  ∀ (i : Instr) (s t : State) (freq : Frequency), exec i s = .next t →
    exec i { s with ctl := { s.ctl with systemClockFrequency := freq } } =
      .next (match i with
        | .init _ => t
        | _ => { t with ctl := { t.ctl with systemClockFrequency := freq } })

/-- The host-answer port is read only by an ACK that invokes the handler: any other operation does the same whatever
byte is there (00_scope.md; the spec's decisions D1 and D10). -/
def Obligations.HostAnswerIsReadOnlyByAHandledAck : Prop :=
  ∀ (i : Instr) (s t : State) (answer : Byte),
    (i = .ack → s.ctl.handlerInstalled = false ∨ ∀ j : ChannelId, (s.channel j).requests = false) →
    exec i s = .next t →
    exec i { s with hostAnswer := answer } = .next { t with hostAnswer := answer }

/-! ### The invariant -/

/-- The reset state meets the invariant. -/
def Obligations.ResetMeetsTheInvariant : Prop := State.reset.Inv

/-- Every step keeps the invariant: each channel's decoded fields agree with its control byte, its count is in 0..256 and
positive while it runs, its accumulator is in 0..255, and the command index stays within the list or at its end
(10_state.md, inferences the spec marks as its own). -/
def Obligations.EveryStepKeepsTheInvariant : Prop :=
  ∀ s t : State, s.Inv → step s = .next t → t.Inv
end

