-- ==== Sys2Proof/Laws/Decode.lean ====
section
/-!
SUPPORT. The fields of a packed word, and a word as the packing of its fields (30_encoding.md R80), for proofs about
the decoder and the encoder to cite.
-/
namespace Sys2Proof

@[simp] theorem opField_packWord (op idx : BitVec 8) (data : BitVec 32) : opField (packWord op idx data) = op := by
  apply BitVec.eq_of_getLsbD_eq
  intro k hk
  simp only [opField, packWord, BitVec.getLsbD_extractLsb', BitVec.getLsbD_append, hk, decide_true, Bool.true_and]
  rw [if_neg (by omega), if_neg (by omega)]
  congr 1
  omega

@[simp] theorem idxField_packWord (op idx : BitVec 8) (data : BitVec 32) :
    idxField (packWord op idx data) = idx := by
  apply BitVec.eq_of_getLsbD_eq
  intro k hk
  simp only [idxField, packWord, BitVec.getLsbD_extractLsb', BitVec.getLsbD_append, hk, decide_true, Bool.true_and]
  rw [if_neg (by omega), if_pos (by omega)]
  congr 1
  omega

@[simp] theorem dataField_packWord (op idx : BitVec 8) (data : BitVec 32) :
    dataField (packWord op idx data) = data := by
  apply BitVec.eq_of_getLsbD_eq
  intro k hk
  simp only [dataField, packWord, BitVec.getLsbD_extractLsb', BitVec.getLsbD_append, hk, decide_true, Bool.true_and]
  rw [if_pos (by omega)]
  congr 1
  omega

/-- A word is its three fields (R80). -/
theorem packWord_fields (w : CommandWord) : packWord (opField w) (idxField w) (dataField w) = w := by
  apply BitVec.eq_of_getLsbD_eq
  intro k hk
  simp only [opField, idxField, dataField, packWord, BitVec.getLsbD_extractLsb', BitVec.getLsbD_append]
  split
  · rename_i h
    simp [h]
  · split
    · rename_i h
      simp [h]
      congr 1
      omega
    · rename_i h h'
      have : k - 32 - 8 < 8 := by omega
      simp [this]
      congr 1
      omega

/-! ### The operand fields as numbers (R82) -/

theorem dataByte_toNat (data : BitVec 32) : (dataByte data).toNat = data.toNat % 256 := by
  simp [dataByte, BitVec.extractLsb'_toNat]

theorem aboveByte_toNat (data : BitVec 32) : (aboveByte data).toNat = data.toNat / 256 := by
  have := data.isLt
  simp [aboveByte, BitVec.extractLsb'_toNat, Nat.shiftRight_eq_div_pow]
  omega

theorem aboveBit_toNat (data : BitVec 32) : (aboveBit data).toNat = data.toNat / 2 := by
  have := data.isLt
  simp [aboveBit, BitVec.extractLsb'_toNat, Nat.shiftRight_eq_div_pow]
  omega

theorem byteData_toNat (b : Byte) : (byteData b).toNat = b.toNat := by
  have := b.isLt
  simp [byteData]
  omega

/-- The bits above a byte operand are 0 exactly when the data field is that byte (R82, R84). -/
theorem aboveByte_eq_zero_iff (data : BitVec 32) :
    aboveByte data = 0 ↔ data = byteData (dataByte data) := by
  rw [BitVec.toNat_eq, BitVec.toNat_eq, aboveByte_toNat, byteData_toNat, dataByte_toNat]
  simp
  omega

/-- The bits above a bit operand are 0 exactly when the data field is that bit (R82, R84). -/
theorem aboveBit_eq_zero_iff (data : BitVec 32) :
    aboveBit data = 0 ↔ data = bitData (dataBit data) := by
  have hbit : (dataBit data).toNat = data.toNat % 2 := by
    simp [dataBit, BitVec.getLsbD, Nat.testBit, Bool.toNat]
    rcases Nat.mod_two_eq_zero_or_one data.toNat with h | h <;> simp [h]
  have hdata : (bitData (dataBit data)).toNat = data.toNat % 2 := by
    rw [← hbit]
    cases dataBit data <;> rfl
  rw [BitVec.toNat_eq, BitVec.toNat_eq, aboveBit_toNat, hdata]
  simp
  omega

/-- A byte operand read back from its data field (R82). -/
@[simp] theorem byteData_low (b : Byte) : dataByte (byteData b) = b := by
  apply BitVec.eq_of_toNat_eq
  have := b.isLt
  rw [dataByte_toNat, byteData_toNat]
  omega

@[simp] theorem byteData_high (b : Byte) : aboveByte (byteData b) = 0 := by
  rw [aboveByte_eq_zero_iff, byteData_low]

/-- A bit operand read back from its data field (R82). -/
@[simp] theorem bitData_low (b : Bool) : dataBit (bitData b) = b := by cases b <;> rfl

@[simp] theorem bitData_high (b : Bool) : aboveBit (bitData b) = 0 := by
  rw [aboveBit_eq_zero_iff, bitData_low]

/-- The decoder by the three fields of a word (R82, R84 to R86). -/
@[simp] theorem decode_packWord (op idx : BitVec 8) (data : BitVec 32) :
    decode (packWord op idx data) = decodeFields op idx data := by
  simp only [decode, opField_packWord, idxField_packWord, dataField_packWord]

end Sys2Proof
end

