-- ==== Sys2Proof/Laws/State.lean ====
section
/-!
SUPPORT. The small lemmas of the state's updates: what each leaves in each field.
-/
namespace Sys2Proof.Machine

/-! ### Reading and writing a channel -/

@[simp] theorem Channels.get_set (cs : Channels) (i j : ChannelId) (c : Channel) :
    (cs.set i c).get j = if j = i then c else cs.get j := by
  fin_cases i <;> fin_cases j <;> rfl

theorem Channels.ext_get {cs ds : Channels} (h : ∀ i, cs.get i = ds.get i) : cs = ds := by
  obtain ⟨a0, a1, a2, a3⟩ := cs
  obtain ⟨b0, b1, b2, b3⟩ := ds
  have h0 : a0 = b0 := h 0
  have h1 : a1 = b1 := h 1
  have h2 : a2 = b2 := h 2
  have h3 : a3 = b3 := h 3
  rw [h0, h1, h2, h3]

@[simp] theorem Channels.reset_get (i : ChannelId) : Channels.reset.get i = Channel.reset := by
  fin_cases i <;> rfl

/-- Two states are equal when their channels, read one by one, and their other fields are. -/
theorem State.ext_channel {s t : State} (hch : ∀ i, s.channel i = t.channel i) (hctl : s.ctl = t.ctl)
    (hprogram : s.program = t.program) (hindex : s.index = t.index) (hanswer : s.hostAnswer = t.hostAnswer)
    (hresponse : s.response = t.response) (hevents : s.events = t.events) : s = t := by
  obtain ⟨ch, ctl, program, index, answer, response, events⟩ := s
  obtain ⟨ch', ctl', program', index', answer', response', events'⟩ := t
  have : ch = ch' := Channels.ext_get hch
  simp_all

/-! ### setChannel -/

@[simp] theorem State.setChannel_channel (s : State) (i j : ChannelId) (c : Channel) :
    (s.setChannel i c).channel j = if j = i then c else s.channel j :=
  Channels.get_set s.ch i j c
@[simp] theorem State.setChannel_ctl (s : State) (i : ChannelId) (c : Channel) :
    (s.setChannel i c).ctl = s.ctl := rfl
@[simp] theorem State.setChannel_program (s : State) (i : ChannelId) (c : Channel) :
    (s.setChannel i c).program = s.program := rfl
@[simp] theorem State.setChannel_index (s : State) (i : ChannelId) (c : Channel) :
    (s.setChannel i c).index = s.index := rfl
@[simp] theorem State.setChannel_hostAnswer (s : State) (i : ChannelId) (c : Channel) :
    (s.setChannel i c).hostAnswer = s.hostAnswer := rfl
@[simp] theorem State.setChannel_response (s : State) (i : ChannelId) (c : Channel) :
    (s.setChannel i c).response = s.response := rfl
@[simp] theorem State.setChannel_events (s : State) (i : ChannelId) (c : Channel) :
    (s.setChannel i c).events = s.events := rfl

/-! ### respond -/

@[simp] theorem State.respond_channel (s : State) (r : Response) (j : ChannelId) :
    (s.respond r).channel j = s.channel j := rfl
@[simp] theorem State.respond_ctl (s : State) (r : Response) : (s.respond r).ctl = s.ctl := rfl
@[simp] theorem State.respond_program (s : State) (r : Response) : (s.respond r).program = s.program := rfl
@[simp] theorem State.respond_index (s : State) (r : Response) : (s.respond r).index = s.index := rfl
@[simp] theorem State.respond_hostAnswer (s : State) (r : Response) :
    (s.respond r).hostAnswer = s.hostAnswer := rfl
@[simp] theorem State.respond_response (s : State) (r : Response) : (s.respond r).response = r := rfl
@[simp] theorem State.respond_events (s : State) (r : Response) : (s.respond r).events = s.events := rfl

/-! ### emit -/

@[simp] theorem State.emit_channel (s : State) (e : Event) (j : ChannelId) :
    (s.emit e).channel j = s.channel j := rfl
@[simp] theorem State.emit_ctl (s : State) (e : Event) : (s.emit e).ctl = s.ctl := rfl
@[simp] theorem State.emit_program (s : State) (e : Event) : (s.emit e).program = s.program := rfl
@[simp] theorem State.emit_index (s : State) (e : Event) : (s.emit e).index = s.index := rfl
@[simp] theorem State.emit_hostAnswer (s : State) (e : Event) : (s.emit e).hostAnswer = s.hostAnswer := rfl
@[simp] theorem State.emit_response (s : State) (e : Event) : (s.emit e).response = s.response := rfl
@[simp] theorem State.emit_events (s : State) (e : Event) : (s.emit e).events = s.events ++ [e] := rfl

/-! ### openPorts -/

@[simp] theorem State.openPorts_channel (s : State) (j : ChannelId) :
    s.openPorts.channel j = s.channel j := rfl
@[simp] theorem State.openPorts_ctl (s : State) : s.openPorts.ctl = s.ctl := rfl
@[simp] theorem State.openPorts_program (s : State) : s.openPorts.program = s.program := rfl
@[simp] theorem State.openPorts_index (s : State) : s.openPorts.index = s.index := rfl
@[simp] theorem State.openPorts_hostAnswer (s : State) : s.openPorts.hostAnswer = s.hostAnswer := rfl
@[simp] theorem State.openPorts_response (s : State) : s.openPorts.response = .none := rfl
@[simp] theorem State.openPorts_events (s : State) : s.openPorts.events = [] := rfl

/-! ### present and advance -/

@[simp] theorem State.present_channel (s : State) (h : Byte) (j : ChannelId) :
    (s.present h).channel j = s.channel j := rfl
@[simp] theorem State.present_ctl (s : State) (h : Byte) : (s.present h).ctl = s.ctl := rfl
@[simp] theorem State.present_program (s : State) (h : Byte) : (s.present h).program = s.program := rfl
@[simp] theorem State.present_index (s : State) (h : Byte) : (s.present h).index = s.index := rfl
@[simp] theorem State.present_hostAnswer (s : State) (h : Byte) : (s.present h).hostAnswer = h := rfl
@[simp] theorem State.present_response (s : State) (h : Byte) : (s.present h).response = s.response := rfl
@[simp] theorem State.present_events (s : State) (h : Byte) : (s.present h).events = s.events := rfl

@[simp] theorem State.advance_channel (s : State) (j : ChannelId) : s.advance.channel j = s.channel j := rfl
@[simp] theorem State.advance_ctl (s : State) : s.advance.ctl = s.ctl := rfl
@[simp] theorem State.advance_program (s : State) : s.advance.program = s.program := rfl
@[simp] theorem State.advance_index (s : State) : s.advance.index = s.index + 1 := rfl
@[simp] theorem State.advance_hostAnswer (s : State) : s.advance.hostAnswer = s.hostAnswer := rfl
@[simp] theorem State.advance_response (s : State) : s.advance.response = s.response := rfl
@[simp] theorem State.advance_events (s : State) : s.advance.events = s.events := rfl

end Sys2Proof.Machine
end

