-- ==== Sys2Proof/Laws/Ops.lean ====
section
/-!
SUPPORT. One lemma per shared operation that says all it does, for proofs to cite instead of unfolding it, and the
small facts of the decoder's field functions.
-/
namespace Sys2Proof.Machine

/-! ### Operands -/

/-- The two ways an index operand can come out (R17). -/
theorem channelOf_cases (idx : Byte) :
    (∃ i : ChannelId, channelOf idx = some i ∧ idx.toNat = i.val)
      ∨ (channelOf idx = none ∧ 4 ≤ idx.toNat) := by
  unfold channelOf
  split
  · exact .inl ⟨_, rfl, rfl⟩
  · exact .inr ⟨rfl, by omega⟩

theorem channelOf_eq_some {idx : Byte} {i : ChannelId} :
    channelOf idx = some i ↔ idx.toNat = i.val := by
  obtain ⟨j, hj, hij⟩ | ⟨hn, hge⟩ := channelOf_cases idx
  · rw [hj, hij]
    simp [Fin.ext_iff]
  · rw [hn]
    have := i.isLt
    simp
    omega

theorem reload_pos (k : Byte) : 1 ≤ reload k := by
  unfold reload
  split
  · decide
  · rename_i h
    have : k.toNat ≠ 0 := fun e => h (BitVec.eq_of_toNat_eq (by simpa using e))
    omega

theorem reload_le (k : Byte) : reload k ≤ 256 := by
  unfold reload
  split
  · exact le_refl _
  · have := k.isLt
    omega

theorem divisor_pos (p : Prescaler) : 1 ≤ p.divisor := by cases p <;> decide

theorem divisor_le (p : Prescaler) : p.divisor ≤ 256 := by cases p <;> decide

/-! ### The guard -/

/-- All that `operate` can answer (R161). -/
theorem State.operate_cases (s : State) (f : State → State) :
    (s.ctl.initialised = true ∧ s.operate f = .next (f s.openPorts))
      ∨ (s.ctl.initialised = false ∧ s.operate f = .refused .beforeInit) := by
  unfold State.operate
  cases h : s.ctl.initialised <;> simp

theorem State.operate_of_initialised {s : State} (h : s.ctl.initialised = true) (f : State → State) :
    s.operate f = .next (f s.openPorts) := by
  simp [State.operate, h]

theorem State.operate_eq_next {s t : State} {f : State → State} (h : s.operate f = .next t) :
    s.ctl.initialised = true ∧ t = f s.openPorts := by
  obtain ⟨hi, ho⟩ | ⟨_, ho⟩ := s.operate_cases f
  · rw [ho] at h
    exact ⟨hi, by cases h; rfl⟩
  · rw [ho] at h
    cases h

/-! ### Writing one channel -/

/-- All that `updateAt` does: the named channel, if the index is valid, is changed by `f`, and nothing else (R51). -/
theorem State.updateAt_channel (s : State) (idx : Byte) (f : Channel → Channel) (j : ChannelId) :
    (s.updateAt idx f).channel j = if idx.toNat = j.val then f (s.channel j) else s.channel j := by
  unfold State.updateAt
  obtain ⟨i, hi, hv⟩ | ⟨hn, hge⟩ := channelOf_cases idx
  · rw [hi, hv]
    by_cases h : j = i
    · simp [h]
    · have h' : ¬ (i.val = j.val) := fun e => h (Fin.ext e.symm)
      simp [h, h']
  · rw [hn]
    have := j.isLt
    have h' : ¬ (idx.toNat = j.val) := by omega
    simp [h']

@[simp] theorem State.updateAt_ctl (s : State) (idx : Byte) (f : Channel → Channel) :
    (s.updateAt idx f).ctl = s.ctl := by unfold State.updateAt; split <;> rfl
@[simp] theorem State.updateAt_program (s : State) (idx : Byte) (f : Channel → Channel) :
    (s.updateAt idx f).program = s.program := by unfold State.updateAt; split <;> rfl
@[simp] theorem State.updateAt_index (s : State) (idx : Byte) (f : Channel → Channel) :
    (s.updateAt idx f).index = s.index := by unfold State.updateAt; split <;> rfl
@[simp] theorem State.updateAt_hostAnswer (s : State) (idx : Byte) (f : Channel → Channel) :
    (s.updateAt idx f).hostAnswer = s.hostAnswer := by unfold State.updateAt; split <;> rfl
@[simp] theorem State.updateAt_response (s : State) (idx : Byte) (f : Channel → Channel) :
    (s.updateAt idx f).response = s.response := by unfold State.updateAt; split <;> rfl
@[simp] theorem State.updateAt_events (s : State) (idx : Byte) (f : Channel → Channel) :
    (s.updateAt idx f).events = s.events := by unfold State.updateAt; split <;> rfl

/-! ### Zero-crossing and count-down -/

/-- The callback event of channel i, if its callback is installed (R110). -/
def Channel.cbEvents (c : Channel) (i : ChannelId) : List Event := if c.cbInstalled then [.cb i] else []

/-- A channel after a count-down (R111). -/
def Channel.counted (c : Channel) : Channel :=
  if c.currentCount ≤ 1 then c.reloaded else { c with currentCount := c.currentCount - 1 }

theorem Channel.decremented_cbInstalled (c : Channel) : c.decremented.cbInstalled = c.cbInstalled := by
  unfold Channel.decremented
  split <;> rfl

/-- All that `zeroCrossing` does (R110). -/
theorem State.zeroCrossing_eq (s : State) (i : ChannelId) :
    s.zeroCrossing i =
      { s.setChannel i (s.channel i).reloaded with events := s.events ++ (s.channel i).cbEvents i } := by
  have hcb : ((s.setChannel i (s.channel i).reloaded).channel i).cbInstalled = (s.channel i).cbInstalled := by
    simp [Channel.reloaded]
  unfold State.zeroCrossing Channel.cbEvents
  simp only [hcb]
  cases (s.channel i).cbInstalled
  · simp [State.setChannel]
  · rfl

/-- All that `countDown` does (R111): the one channel is counted, and its callback runs if it crossed zero. -/
theorem State.countDown_eq (s : State) (i : ChannelId) :
    s.countDown i =
      { s.setChannel i (s.channel i).counted with
        events := s.events ++ (if (s.channel i).currentCount ≤ 1 then (s.channel i).cbEvents i else []) } := by
  have hzero : ((s.channel i).decremented.currentCount = 0) ↔ (s.channel i).currentCount ≤ 1 := by
    unfold Channel.decremented
    split
    · simp
      omega
    · omega
  unfold State.countDown
  simp only [State.setChannel_channel, if_true, hzero]
  by_cases h : (s.channel i).currentCount ≤ 1
  · simp only [if_pos h, State.zeroCrossing_eq]
    apply State.ext_channel
    · intro j
      show ((s.setChannel i _).setChannel i _).channel j = (s.setChannel i _).channel j
      by_cases hj : j = i
      · simp [hj, Channel.counted, h, Channel.reloaded, Channel.decremented, Channel.latchedPending]
        split <;> simp
      · simp [hj]
    all_goals simp [Channel.cbEvents, Channel.decremented_cbInstalled]
  · have hpos : 0 < (s.channel i).currentCount := by omega
    simp [h, Channel.counted, Channel.decremented, hpos, State.setChannel]

/-! ### TICK and TRIG on one channel -/

/-- A channel after a TICK (R113). -/
def Channel.ticked (c : Channel) : Channel :=
  if c.mode = .timer ∧ c.isRunning = true then
    if c.triggerCount + 1 < c.prescaler.divisor then { c with triggerCount := c.triggerCount + 1 }
    else Channel.counted { c with triggerCount := 0 }
  else c

/-- The events a TICK makes on channel i (R113). -/
def Channel.tickEvents (c : Channel) (i : ChannelId) : List Event :=
  if c.mode = .timer ∧ c.isRunning = true ∧ c.prescaler.divisor ≤ c.triggerCount + 1 ∧ c.currentCount ≤ 1
  then c.cbEvents i else []

/-- All that `tickChannel` does (R113). -/
theorem State.tickChannel_eq (s : State) (i : ChannelId) :
    s.tickChannel i =
      { s.setChannel i (s.channel i).ticked with events := s.events ++ (s.channel i).tickEvents i } := by
  have hself : s.setChannel i (s.channel i) = s := by
    apply State.ext_channel <;> simp
  unfold State.tickChannel Channel.ticked Channel.tickEvents
  by_cases hc : (s.channel i).mode = .timer ∧ (s.channel i).isRunning = true
  · by_cases ht : (s.channel i).triggerCount + 1 < (s.channel i).prescaler.divisor
    · have ht' : ¬ ((s.channel i).prescaler.divisor ≤ (s.channel i).triggerCount + 1) := by omega
      simp [hc, ht, ht', State.setChannel]
    · have ht' : (s.channel i).prescaler.divisor ≤ (s.channel i).triggerCount + 1 := by omega
      simp only [if_pos hc, if_neg ht, State.countDown_eq]
      apply State.ext_channel
      · intro j
        show ((s.setChannel i _).setChannel i _).channel j = (s.setChannel i _).channel j
        by_cases hj : j = i <;> simp [hj]
      all_goals simp [Channel.cbEvents, hc, ht']
  · have hc' : ¬ ((s.channel i).mode = .timer ∧ (s.channel i).isRunning = true ∧
        (s.channel i).prescaler.divisor ≤ (s.channel i).triggerCount + 1 ∧ (s.channel i).currentCount ≤ 1) :=
      fun h => hc ⟨h.1, h.2.1⟩
    simp only [if_neg hc, if_neg hc', hself, List.append_nil]

/-- All that TICK's sweep does (R62, R113): every channel is ticked, and the events come in index order. -/
theorem State.tick_eq (s : State) :
    (∀ j, (channelIds.foldl State.tickChannel s).channel j = (s.channel j).ticked)
      ∧ (channelIds.foldl State.tickChannel s).events
          = s.events ++ channelIds.flatMap (fun i => (s.channel i).tickEvents i)
      ∧ (channelIds.foldl State.tickChannel s).ctl = s.ctl
      ∧ (channelIds.foldl State.tickChannel s).program = s.program
      ∧ (channelIds.foldl State.tickChannel s).index = s.index
      ∧ (channelIds.foldl State.tickChannel s).hostAnswer = s.hostAnswer
      ∧ (channelIds.foldl State.tickChannel s).response = s.response := by
  have hch : ∀ (s : State) (i j : ChannelId),
      (s.tickChannel i).channel j = if j = i then (s.channel i).ticked else s.channel j := by
    intro s i j
    rw [State.tickChannel_eq]
    exact State.setChannel_channel s i j _
  have hev : ∀ (s : State) (i : ChannelId),
      (s.tickChannel i).events = s.events ++ (s.channel i).tickEvents i := by
    intro s i
    rw [State.tickChannel_eq]
  have hrest : ∀ (s : State) (i : ChannelId),
      (s.tickChannel i).ctl = s.ctl ∧ (s.tickChannel i).program = s.program ∧ (s.tickChannel i).index = s.index
        ∧ (s.tickChannel i).hostAnswer = s.hostAnswer ∧ (s.tickChannel i).response = s.response := by
    intro s i
    rw [State.tickChannel_eq]
    exact ⟨rfl, rfl, rfl, rfl, rfl⟩
  refine ⟨?_, ?_, ?_⟩
  · intro j
    fin_cases j <;> simp [channelIds, hch]
  · simp [channelIds, hev, hch]
  · simp [channelIds, hrest]

/-- A channel after a TRIG addressed to it (R115). -/
def Channel.triggered (level : Bool) (c : Channel) : Channel :=
  { (if c.mode = .counter ∧ c.seesEdge level = true ∧ c.isRunning = true then c.counted else c) with
    lastTriggerState := level }

/-- The events of a TRIG addressed to channel i (R115). -/
def Channel.trigEvents (c : Channel) (level : Bool) (i : ChannelId) : List Event :=
  if c.mode = .counter ∧ c.seesEdge level = true ∧ c.isRunning = true ∧ c.currentCount ≤ 1
  then c.cbEvents i else []

/-- All that `trigger` does (R115). -/
theorem State.trigger_eq (s : State) (i : ChannelId) (level : Bool) :
    s.trigger i level =
      { s.setChannel i ((s.channel i).triggered level) with
        events := s.events ++ (s.channel i).trigEvents level i } := by
  unfold State.trigger Channel.triggered Channel.trigEvents
  simp only [Config.trigUpdatesEdgeInTimerMode, or_true, if_true]
  by_cases hc : (s.channel i).mode = .counter ∧ (s.channel i).seesEdge level = true ∧ (s.channel i).isRunning = true
  · have hev : ∀ a : Prop, ((s.channel i).mode = .counter ∧ (s.channel i).seesEdge level = true ∧
        (s.channel i).isRunning = true ∧ a) ↔ a := fun a => ⟨fun h => h.2.2.2, fun h => ⟨hc.1, hc.2.1, hc.2.2, h⟩⟩
    simp only [if_pos hc, State.countDown_eq]
    apply State.ext_channel
    · intro j
      show ((s.setChannel i _).setChannel i { ((s.setChannel i _).channel i) with lastTriggerState := level }).channel j
        = (s.setChannel i _).channel j
      by_cases hj : j = i <;> simp [hj]
    all_goals simp [State.setChannel]
    by_cases ha : (s.channel i).currentCount ≤ 1 <;> simp [ha, hc]
  · have hc' : ¬ ((s.channel i).mode = .counter ∧ (s.channel i).seesEdge level = true ∧
        (s.channel i).isRunning = true ∧ (s.channel i).currentCount ≤ 1) :=
      fun h => hc ⟨h.1, h.2.1, h.2.2.1⟩
    simp only [if_neg hc, if_neg hc', List.append_nil]
    rfl

/-! ### The arbiter -/

/-- All that the selection can answer (R121, R147): the lowest-numbered requesting channel, or none requests. -/
theorem State.selected_cases (s : State) :
    (∃ i, s.selected = some i ∧ (s.channel i).requests = true
        ∧ ∀ j : ChannelId, j < i → (s.channel j).requests = false)
      ∨ (s.selected = none ∧ ∀ j : ChannelId, (s.channel j).requests = false) := by
  unfold State.selected channelIds
  cases h0 : (s.channel 0).requests
  · cases h1 : (s.channel 1).requests
    · cases h2 : (s.channel 2).requests
      · cases h3 : (s.channel 3).requests
        · refine .inr ⟨by simp [h0, h1, h2, h3], ?_⟩
          intro j
          fin_cases j <;> assumption
        · refine .inl ⟨3, by simp [h0, h1, h2, h3], h3, ?_⟩
          intro j hj
          fin_cases j <;> first | assumption | exact absurd hj (by decide)
      · refine .inl ⟨2, by simp [h0, h1, h2], h2, ?_⟩
        intro j hj
        fin_cases j <;> first | assumption | exact absurd hj (by decide)
    · refine .inl ⟨1, by simp [h0, h1], h1, ?_⟩
      intro j hj
      fin_cases j <;> first | assumption | exact absurd hj (by decide)
  · refine .inl ⟨0, by simp [h0], h0, ?_⟩
    intro j hj
    exact absurd hj (by simp)

/-- All that `acknowledge` does (R121). -/
theorem State.acknowledge_eq (s : State) (i : ChannelId) :
    s.acknowledge i =
      { s.setChannel i { s.channel i with interruptPending := false } with
        response := .byte (if s.ctl.handlerInstalled then s.hostAnswer else (s.channel i).interruptVector)
        events := s.events ++ (if s.ctl.handlerInstalled then [.hnd i] else []) } := by
  unfold State.acknowledge
  cases h : s.ctl.handlerInstalled
  · simp [h, State.respond, State.setChannel]
  · simp [h, State.respond, State.setChannel, State.emit]

/-! ### The step -/

/-- All that a step can answer, by what the host issues and how it decodes (R141, R142). -/
theorem step_cases (s : State) :
    (s.fetch? = none ∧ step s = .fault .noCommand)
      ∨ (∃ c r, s.fetch? = some c ∧ decode c.word = .refused r ∧ step s = .refused (refusalOf r))
      ∨ (∃ c i, s.fetch? = some c ∧ decode c.word = .instr i
          ∧ step s = advanceOutcome (exec i (s.present c.answer))) := by
  unfold step
  cases hf : s.fetch? with
  | none => exact .inl ⟨rfl, rfl⟩
  | some c =>
    cases hd : decode c.word with
    | refused r => exact .inr (.inl ⟨c, r, rfl, hd, by simp [hd]⟩)
    | instr i => exact .inr (.inr ⟨c, i, rfl, hd, by simp [hd]⟩)

/-- What `placeIssue` puts at its index is what a fetch there finds. -/
theorem placeIssue_getElem? (program : List Issue) (index : Nat) (c : Issue) :
    (placeIssue program index c)[index]? = some c := by
  unfold placeIssue
  have hlen : (program.take index ++ List.replicate (index - (program.take index).length) c).length = index := by
    simp
  rw [List.append_assoc, ← List.append_assoc, List.getElem?_append_right (by omega), hlen]
  simp

end Sys2Proof.Machine
end

