-- ==== Sys2Proof/Laws/Exec.lean ====
section
/-!
SUPPORT. What each instruction's meaning answers, said once: `exec_of_initialised` when the block is initialised,
`exec_before_init` when it is not, and `exec_eq_next` for a meaning that answered a next state.
-/
namespace Sys2Proof.Machine

/-- A control write at the spec's value of U7 (R100). -/
theorem Channel.writeControl_eq (b : Byte) (c : Channel) :
    c.writeControl b =
      { c.configured b with
        currentCount := if decRST b then 0 else c.currentCount
        isRunning := c.isRunning && !decRST b && !decTCF b
        interruptPending := c.interruptPending && !decRST b } := by
  unfold Channel.writeControl
  cases hr : decRST b <;> cases ht : decTCF b <;>
    simp [Config.prescalerResetOnWrite, Channel.configured, Channel.softReset, Channel.stopped]

/-- A time-constant write at the spec's value of U7 (R101). -/
theorem Channel.writeTimeConstant_eq (k : Byte) (c : Channel) : c.writeTimeConstant k = c.started k := rfl

/-- The state an instruction leaves when its meaning answers one. -/
def after (i : Instr) (s : State) : State :=
  match i with
  | .init freq => { s.openPorts with ch := Channels.reset, ctl := Controller.reset freq }
  | .wctl idx b => s.openPorts.updateAt idx (Channel.writeControl b)
  | .wtc idx k => s.openPorts.updateAt idx (Channel.started k)
  | .setcb idx install => s.openPorts.updateAt idx fun c => { c with cbInstalled := install }
  | .trig idx level =>
    { s.openPorts.updateAt idx (Channel.triggered level) with
      events := channelIds.flatMap fun j => if idx.toNat = j.val then (s.channel j).trigEvents level j else [] }
  | .tick => channelIds.foldl State.tickChannel s.openPorts
  | .setvec idx v => s.openPorts.updateAt idx fun c => { c with interruptVector := v }
  | .getvec idx => s.openPorts.respond (.byte (s.openPorts.vectorAt idx))
  | .sethnd install => { s.openPorts with ctl := { s.ctl with handlerInstalled := install } }
  | .haspend => s.openPorts.respond (.bit (channelIds.any fun j => (s.channel j).requests))
  | .ack =>
    match s.selected with
    | some i => s.openPorts.acknowledge i
    | none => s.openPorts.respond (.byte 0x00)

/-- TRIG's events are those of the one channel its index names (R115). -/
theorem trig_effect (s : State) (idx : Byte) (level : Bool) :
    (match channelOf idx with
      | some i => s.openPorts.trigger i level
      | none => s.openPorts) = after (.trig idx level) s := by
  simp only [after, State.updateAt]
  obtain ⟨i, hi, hv⟩ | ⟨hn, hge⟩ := channelOf_cases idx
  · rw [hi, hv]
    simp only [State.trigger_eq]
    fin_cases i <;> simp [channelIds, State.setChannel]
  · rw [hn]
    have hne : ∀ j : ChannelId, ¬ idx.toNat = j.val := fun j => by omega
    simp [hne, State.openPorts]

/-- Every instruction's meaning, when the block is initialised. -/
theorem exec_of_initialised {s : State} (h : s.ctl.initialised = true) (i : Instr) :
    exec i s = .next (after i s) := by
  cases i with
  | init freq => rfl
  | trig idx level =>
    simp only [exec, execTrig, State.operate_of_initialised h]
    exact congrArg _ (trig_effect s idx level)
  | _ =>
    simp only [exec, execWctl, execWtc, execSetcb, execTick, execSetvec, execGetvec, execSethnd, execHaspend, execAck,
      State.operate_of_initialised h]
    rfl

/-- Every instruction's meaning but INIT's, before the block is initialised (R161). -/
theorem exec_before_init {s : State} (h : s.ctl.initialised = false) {i : Instr} (hi : ∀ freq, i ≠ .init freq) :
    exec i s = .refused .beforeInit := by
  have hop : ∀ f, s.operate f = .refused .beforeInit := fun f => by simp [State.operate, h]
  cases i with
  | init freq => exact absurd rfl (hi freq)
  | _ =>
    simp only [exec, execWctl, execWtc, execSetcb, execTrig, execTick, execSetvec, execGetvec, execSethnd, execHaspend,
      execAck, hop]

/-- What a meaning that answered a next state can have done. -/
theorem exec_eq_next {i : Instr} {s t : State} (h : exec i s = .next t) :
    t = after i s ∧ (s.ctl.initialised = true ∨ ∃ freq, i = .init freq) := by
  cases hi : s.ctl.initialised
  · by_cases hf : ∃ freq, i = .init freq
    · obtain ⟨freq, rfl⟩ := hf
      cases h
      exact ⟨rfl, .inr ⟨freq, rfl⟩⟩
    · rw [exec_before_init hi fun freq e => hf ⟨freq, e⟩] at h
      cases h
  · rw [exec_of_initialised hi] at h
    cases h
    exact ⟨rfl, .inl rfl⟩

/-- A meaning that did not answer a next state refused for want of INIT; none faults (R140, R161). -/
theorem exec_cases (i : Instr) (s : State) :
    (exec i s = .next (after i s) ∧ (s.ctl.initialised = true ∨ ∃ freq, i = .init freq))
      ∨ (exec i s = .refused .beforeInit ∧ s.ctl.initialised = false ∧ ∀ freq, i ≠ .init freq) := by
  cases hi : s.ctl.initialised
  · by_cases hf : ∃ freq, i = .init freq
    · obtain ⟨freq, rfl⟩ := hf
      exact .inl ⟨rfl, .inr ⟨freq, rfl⟩⟩
    · have hn : ∀ freq, i ≠ .init freq := fun freq e => hf ⟨freq, e⟩
      exact .inr ⟨exec_before_init hi hn, rfl, hn⟩
  · exact .inl ⟨exec_of_initialised hi i, .inl rfl⟩

/-- The host's side is untouched by every instruction (R60). -/
theorem after_sameHost (i : Instr) (s : State) :
    (after i s).program = s.program ∧ (after i s).index = s.index ∧ (after i s).hostAnswer = s.hostAnswer := by
  cases i with
  | tick =>
    obtain ⟨_, _, _, hp, hi, hh, _⟩ := State.tick_eq s.openPorts
    exact ⟨hp, hi, hh⟩
  | ack =>
    unfold after
    cases s.selected with
    | none => exact ⟨rfl, rfl, rfl⟩
    | some i =>
      simp only [State.acknowledge_eq]
      exact ⟨rfl, rfl, rfl⟩
  | _ => simp [after]

/-- What every instruction leaves in channel j. -/
theorem after_channel (i : Instr) (s : State) (j : ChannelId) :
    (after i s).channel j =
      match i with
      | .init _ => Channel.reset
      | .wctl idx b => if idx.toNat = j.val then (s.channel j).writeControl b else s.channel j
      | .wtc idx k => if idx.toNat = j.val then (s.channel j).started k else s.channel j
      | .setcb idx install =>
          if idx.toNat = j.val then { s.channel j with cbInstalled := install } else s.channel j
      | .trig idx level => if idx.toNat = j.val then (s.channel j).triggered level else s.channel j
      | .tick => (s.channel j).ticked
      | .setvec idx v => if idx.toNat = j.val then { s.channel j with interruptVector := v } else s.channel j
      | .getvec _ => s.channel j
      | .sethnd _ => s.channel j
      | .haspend => s.channel j
      | .ack => if s.selected = some j then { s.channel j with interruptPending := false } else s.channel j := by
  cases i with
  | init freq => exact Channels.reset_get j
  | tick => exact (State.tick_eq s.openPorts).1 j
  | trig idx level => exact State.updateAt_channel _ _ _ j
  | ack =>
    simp only [after]
    cases s.selected with
    | none => simp
    | some i =>
      simp only [State.acknowledge_eq]
      refine (State.setChannel_channel _ i j _).trans ?_
      by_cases h : j = i
      · simp [h]
      · have h' : ¬ i = j := fun e => h e.symm
        simp [h, h']
  | _ => simp [after, State.updateAt_channel] <;> rfl

/-- What every instruction leaves in the Controller. -/
theorem after_ctl (i : Instr) (s : State) :
    (after i s).ctl =
      match i with
      | .init freq => Controller.reset freq
      | .sethnd install => { s.ctl with handlerInstalled := install }
      | _ => s.ctl := by
  cases i with
  | tick => exact (State.tick_eq s.openPorts).2.2.1
  | ack =>
    simp only [after]
    cases s.selected with
    | none => rfl
    | some i =>
      simp only [State.acknowledge_eq]
      rfl
  | _ => simp [after]

/-- What every instruction answers. -/
theorem after_response (i : Instr) (s : State) :
    (after i s).response =
      match i with
      | .getvec idx => .byte (s.vectorAt idx)
      | .haspend => .bit (channelIds.any fun j => (s.channel j).requests)
      | .ack =>
        match s.selected with
        | some i => .byte (if s.ctl.handlerInstalled then s.hostAnswer else (s.channel i).interruptVector)
        | none => .byte 0x00
      | _ => .none := by
  cases i with
  | tick => exact (State.tick_eq s.openPorts).2.2.2.2.2.2
  | ack =>
    simp only [after]
    cases s.selected with
    | none => rfl
    | some i =>
      simp only [State.acknowledge_eq]
      rfl
  | getvec idx => rfl
  | haspend => rfl
  | _ => simp [after]

/-- The events every instruction makes. -/
theorem after_events (i : Instr) (s : State) :
    (after i s).events =
      match i with
      | .trig idx level =>
          channelIds.flatMap fun j => if idx.toNat = j.val then (s.channel j).trigEvents level j else []
      | .tick => channelIds.flatMap fun j => (s.channel j).tickEvents j
      | .ack =>
        match s.selected with
        | some i => if s.ctl.handlerInstalled then [.hnd i] else []
        | none => []
      | _ => [] := by
  cases i with
  | tick => exact ((State.tick_eq s.openPorts).2.1).trans (by simp)
  | ack =>
    simp only [after]
    cases s.selected with
    | none => rfl
    | some i =>
      simp only [State.acknowledge_eq]
      rfl
  | trig idx level => rfl
  | _ => simp [after]

end Sys2Proof.Machine
end

