-- ==== Sys2Proof/Laws/PerInstr.lean ====
section
/-!
SUPPORT. Statements made of every instruction as syntax. `WordOfItsRow`: the word the encoder writes for an instruction
is one of the row of spec/opcode_table.json that bears the instruction's mnemonic (30_encoding.md R86).
-/
namespace Sys2Proof.Laws

/-- The encoder's word belongs to the row of the instruction's mnemonic. -/
def WordOfItsRow.Statement (i : Instr) : Prop :=
  ∃ r ∈ opcodeTable, r.mnemonic = i.mnemonic ∧ r.accepts (encode i) = true

/-- A mask acts on the three fields of a word each by itself. -/
theorem packWord_and (op idx op' idx' : BitVec 8) (data data' : BitVec 32) :
    packWord op idx data &&& packWord op' idx' data' = packWord (op &&& op') (idx &&& idx') (data &&& data') := by
  apply BitVec.eq_of_getLsbD_eq
  intro k hk
  simp only [packWord, BitVec.getLsbD_and, BitVec.getLsbD_append]
  split
  · rfl
  · split <;> rfl

/-- Nothing of a field passes a mask of 0. -/
theorem and_none (w : Nat) (x : BitVec w) : x &&& 0 = 0 := by simp

/-- A byte operand leaves the bits a byte row requires to be 0 (R82, R84). -/
theorem byteData_masked (b : Byte) : byteData b &&& 0xFFFFFF00 = 0 := by
  revert b
  decide

/-- A bit operand leaves the bits a bit row requires to be 0 (R82, R84). -/
theorem bitData_masked (b : Bool) : bitData b &&& 0xFFFFFFFE = 0 := by
  cases b <;> decide

theorem WordOfItsRow.init (freq : Frequency) : WordOfItsRow.Statement (.init freq) := by
  refine ⟨⟨"INIT", 0x010000000000, 0xFFFF00000000⟩, by decide, rfl, ?_⟩
  have hm : (0xFFFF00000000 : CommandWord) = packWord 0xFF 0xFF 0 := by decide
  simp only [OpcodeRow.accepts, encode, hm, packWord_and, and_none]
  decide

theorem WordOfItsRow.wctl (idx b : Byte) : WordOfItsRow.Statement (.wctl idx b) := by
  refine ⟨⟨"WCTL", 0x020000000000, 0xFF00FFFFFF00⟩, by decide, rfl, ?_⟩
  have hm : (0xFF00FFFFFF00 : CommandWord) = packWord 0xFF 0 0xFFFFFF00 := by decide
  simp only [OpcodeRow.accepts, encode, hm, packWord_and, and_none, byteData_masked]
  decide

theorem WordOfItsRow.wtc (idx k : Byte) : WordOfItsRow.Statement (.wtc idx k) := by
  refine ⟨⟨"WTC", 0x030000000000, 0xFF00FFFFFF00⟩, by decide, rfl, ?_⟩
  have hm : (0xFF00FFFFFF00 : CommandWord) = packWord 0xFF 0 0xFFFFFF00 := by decide
  simp only [OpcodeRow.accepts, encode, hm, packWord_and, and_none, byteData_masked]
  decide

theorem WordOfItsRow.setcb (idx : Byte) (install : Bool) : WordOfItsRow.Statement (.setcb idx install) := by
  refine ⟨⟨"SETCB", 0x040000000000, 0xFF00FFFFFFFE⟩, by decide, rfl, ?_⟩
  have hm : (0xFF00FFFFFFFE : CommandWord) = packWord 0xFF 0 0xFFFFFFFE := by decide
  simp only [OpcodeRow.accepts, encode, hm, packWord_and, and_none, bitData_masked]
  decide

theorem WordOfItsRow.trig (idx : Byte) (level : Bool) : WordOfItsRow.Statement (.trig idx level) := by
  refine ⟨⟨"TRIG", 0x050000000000, 0xFF00FFFFFFFE⟩, by decide, rfl, ?_⟩
  have hm : (0xFF00FFFFFFFE : CommandWord) = packWord 0xFF 0 0xFFFFFFFE := by decide
  simp only [OpcodeRow.accepts, encode, hm, packWord_and, and_none, bitData_masked]
  decide

theorem WordOfItsRow.tick : WordOfItsRow.Statement .tick :=
  ⟨⟨"TICK", 0x060000000000, 0xFFFFFFFFFFFF⟩, by decide, rfl, by decide⟩

theorem WordOfItsRow.setvec (idx v : Byte) : WordOfItsRow.Statement (.setvec idx v) := by
  refine ⟨⟨"SETVEC", 0x070000000000, 0xFF00FFFFFF00⟩, by decide, rfl, ?_⟩
  have hm : (0xFF00FFFFFF00 : CommandWord) = packWord 0xFF 0 0xFFFFFF00 := by decide
  simp only [OpcodeRow.accepts, encode, hm, packWord_and, and_none, byteData_masked]
  decide

theorem WordOfItsRow.getvec (idx : Byte) : WordOfItsRow.Statement (.getvec idx) := by
  refine ⟨⟨"GETVEC", 0x080000000000, 0xFF00FFFFFFFF⟩, by decide, rfl, ?_⟩
  have hm : (0xFF00FFFFFFFF : CommandWord) = packWord 0xFF 0 0xFFFFFFFF := by decide
  simp only [OpcodeRow.accepts, encode, hm, packWord_and, and_none]
  decide

theorem WordOfItsRow.sethnd (install : Bool) : WordOfItsRow.Statement (.sethnd install) := by
  refine ⟨⟨"SETHND", 0x090000000000, 0xFFFFFFFFFFFE⟩, by decide, rfl, ?_⟩
  cases install <;> decide

theorem WordOfItsRow.haspend : WordOfItsRow.Statement .haspend :=
  ⟨⟨"HASPEND", 0x0A0000000000, 0xFFFFFFFFFFFF⟩, by decide, rfl, by decide⟩

theorem WordOfItsRow.ack : WordOfItsRow.Statement .ack :=
  ⟨⟨"ACK", 0x0B0000000000, 0xFFFFFFFFFFFF⟩, by decide, rfl, by decide⟩

end Sys2Proof.Laws
end

