-- ==== Sys2Proof/Tests/Slice0.lean ====
section
/-!
SUPPORT. Tests of single steps on small states, the words of the spec's encodings, what well-formedness refuses, and a
witness for the hypotheses of each statement. Expected results are from 95_test_vectors.md where a comment names its
table, and else worked by hand from the rule named.
-/
namespace Sys2Proof.Tests
open Sys2Proof.Machine

/-- The state an outcome ends in, if any. -/
def endState : Host.Outcome State Fault Refusal → Option State
  | .next s => some s
  | .fault _ => none
  | .refused _ => none

/-- The refusal an outcome ends in, if any. -/
def refusal : Host.Outcome State Fault Refusal → Option Refusal
  | .next _ => none
  | .fault _ => none
  | .refused r => some r

/-- Channel i after an instruction. -/
def channelAfter (i : ChannelId) (o : Host.Outcome State Fault Refusal) : Option Channel :=
  (endState o).map (·.channel i)

/-- The response of an instruction. -/
def responseOf (o : Host.Outcome State Fault Refusal) : Option Response := (endState o).map (·.response)

/-- The events of an instruction. -/
def eventsOf (o : Host.Outcome State Fault Refusal) : Option (List Event) := (endState o).map (·.events)

/-- The reset state with channel i as given. -/
def stateWith (i : ChannelId) (c : Channel) : State := State.reset.setChannel i c

/-- The reset state with one command issued, the host's answer being 0x99. -/
def issuing (w : CommandWord) : State := { State.reset with program := [⟨w, 0x99⟩] }

/-- A running Counter-mode channel with Rising selected. -/
def counterChannel : Channel :=
  { Channel.reset with mode := .counter, triggerEdge := .rising, isRunning := true, currentCount := 5 }

/-- A running Timer-mode channel one tick short of a decrement. -/
def timerChannel : Channel :=
  { Channel.reset with isRunning := true, timeConstant := 2, currentCount := 2, triggerCount := 15 }

/-- An enabled and pending channel with the vector. -/
def requesting (v : Byte) : Channel :=
  { Channel.reset with interruptEnabled := true, controlRegister := 0x80, interruptPending := true,
                       interruptVector := v }

/-! ### Decoding: every constructor's word, written out from 30_encoding.md R81 and R82 -/

/-- P1 of 95_test_vectors.md; 4000000 is 0x003D0900. -/
theorem test_decode_init : decode 0x0100003D0900 = .instr (.init 4000000) := by decide
/-- "Decode and refusal": idx 4 decodes. -/
theorem test_decode_wctl : decode 0x020400000086 = .instr (.wctl 4 0x86) := by decide
theorem test_decode_wtc : decode 0x030300000001 = .instr (.wtc 3 1) := by decide
theorem test_decode_setcb : decode 0x040100000001 = .instr (.setcb 1 true) := by decide
theorem test_decode_trig : decode 0x050100000000 = .instr (.trig 1 false) := by decide
theorem test_decode_tick : decode 0x060000000000 = .instr .tick := by decide
theorem test_decode_setvec : decode 0x07030000004E = .instr (.setvec 3 0x4E) := by decide
/-- By hand from R82: op 0x08, idx 2, data 0. -/
theorem test_decode_getvec : decode 0x080200000000 = .instr (.getvec 2) := by decide
theorem test_decode_sethnd : decode 0x090000000001 = .instr (.sethnd true) := by decide
theorem test_decode_haspend : decode 0x0A0000000000 = .instr .haspend := by decide
theorem test_decode_ack : decode 0x0B0000000000 = .instr .ack := by decide
/-- "Decode and refusal" of 95_test_vectors.md. -/
theorem test_decode_reserved :
    decode 0x020000000186 = .refused .reservedBits ∧ decode 0x060100000000 = .refused .reservedBits
      ∧ decode 0x050000000002 = .refused .reservedBits ∧ decode 0x0B0000000001 = .refused .reservedBits := by decide
theorem test_decode_unassigned :
    decode 0x000000000000 = .refused .unassignedOp ∧ decode 0x0C0000000000 = .refused .unassignedOp
      ∧ decode 0xFF0000000000 = .refused .unassignedOp ∧ decode 0x0D0000000001 = .refused .unassignedOp := by decide
/-- The encoder writes the words of P1 and P4. -/
theorem test_encode :
    encode (.wtc 3 1) = 0x030300000001 ∧ encode (.setvec 3 0x4E) = 0x07030000004E
      ∧ encode (.init 4000000) = 0x0100003D0900 ∧ encode (.sethnd true) = 0x090000000001 := by decide
theorem test_decodeTableWord :
    decodeTableWord 48 0x04FF00000000 = some (.setcb 0xFF false)
      ∧ decodeTableWord 48 0x060000000000 = some .tick ∧ decodeTableWord 48 0x0C0000000000 = none := by decide

/-! ### Well-formedness: an ill-formed term for each check -/

theorem test_opAssigned_refuses : opAssigned 0x0C0000000000 = false ∧ opAssigned 0x000000000000 = false := by decide
theorem test_reservedClear_refuses :
    reservedClear 0x010100000000 = false ∧ reservedClear 0x020000000100 = false
      ∧ reservedClear 0x040000000002 = false ∧ reservedClear 0x080000000001 = false := by decide
theorem test_wordWellFormed_accepts : wordWellFormed 0x02FF000000FF = true := by decide
theorem test_fitsByte_refuses : AsmCommand.wellFormed (.wctl 0 256) = false ∧ AsmCommand.wellFormed (.rise 256) = false := by
  decide
theorem test_fitsFrequency_refuses : AsmCommand.wellFormed (.init 4294967296) = false := by decide

/-! ### Assembly (R88, R89) -/

theorem test_assemble_wctl :
    assemble [['W', 'C', 'T', 'L', ' ', ' ', '0', ',', ' ', '0', 'x', '8', '6', ' ', ';', 'x']]
      = some [.wctl 0 0x86] := by decide
theorem test_assemble_rise :
    assemble [['R', 'I', 'S', 'E', ' ', '1'], [';'], ['T', 'I', 'C', 'K', 'S', ' ', '2']]
      = some [.trig 1 false, .trig 1 true, .tick, .tick] := by decide
theorem test_assemble_refuses : assemble [['W', 'T', 'C', ' ', '0', ',', ' ', '2', '5', '6']] = none := by decide
theorem test_write_then_read : assemble [writeInstr (.init 0x00AF3C19)] = some [.init 0x00AF3C19] := by decide

/-! ### One step of each instruction -/

/-- Table "INIT": everything is reset, the frequency is the operand, and the handler is removed. -/
theorem test_init :
    endState (exec (.init 5) { stateWith 2 counterChannel with ctl := ⟨0, true, false⟩ })
      = some { State.reset with ctl := ⟨5, false, true⟩ } := by decide

/-- W8: the reset bit. -/
theorem test_wctl_reset_bit :
    channelAfter 0 (exec (.wctl 0 0x02)
        (stateWith 0 { Channel.reset with currentCount := 57, isRunning := true, interruptPending := true,
                                          triggerCount := 9, timeConstant := 60 }))
      = some { Channel.reset with controlRegister := 0x02, triggerCount := 9, timeConstant := 60 } := by decide

/-- Table "WCTL": 0xFF on a reset channel. -/
theorem test_wctl_all_bits :
    channelAfter 0 (exec (.wctl 0 0xFF) State.reset)
      = some { Channel.reset with mode := .counter, prescaler := .div256, triggerEdge := .rising,
                                  interruptEnabled := true, controlRegister := 0xFF } := by decide

/-- Table "WTC": 0 loads 256. -/
theorem test_wtc_zero :
    channelAfter 0 (exec (.wtc 0 0) State.reset)
      = some { Channel.reset with currentCount := 256, isRunning := true } := by decide

/-- Table "WTC": the pending bit is cleared and the accumulator kept. -/
theorem test_wtc_pending :
    channelAfter 0 (exec (.wtc 0 10) (stateWith 0 { requesting 0 with isRunning := true, currentCount := 3,
                                                                      triggerCount := 7 }))
      = some { requesting 0 with isRunning := true, currentCount := 10, timeConstant := 10,
                                 interruptPending := false, triggerCount := 7 } := by decide

/-- Table "SETVEC, GETVEC, SETCB". -/
theorem test_setvec :
    channelAfter 2 (exec (.setvec 2 0x44) State.reset) = some { Channel.reset with interruptVector := 0x44 } := by
  decide
theorem test_setvec_out_of_range : endState (exec (.setvec 5 0x44) State.reset) = some State.reset := by decide
theorem test_getvec :
    responseOf (exec (.getvec 2) (stateWith 2 (requesting 0x44))) = some (.byte 0x44) := by decide
theorem test_getvec_out_of_range :
    responseOf (exec (.getvec 7) (stateWith 3 (requesting 0x44))) = some (.byte 0x00) := by decide
theorem test_setcb :
    channelAfter 1 (exec (.setcb 1 true) State.reset) = some { Channel.reset with cbInstalled := true } := by decide

/-- The worked example of R113. -/
theorem test_tick_decrement :
    channelAfter 0 (exec .tick (stateWith 0 timerChannel))
      = some { timerChannel with triggerCount := 0, currentCount := 1 } := by decide

/-- Table "TICK": two channels zero-cross in one TICK, in order. -/
theorem test_tick_events :
    eventsOf (exec .tick ((stateWith 1 { timerChannel with currentCount := 1, cbInstalled := true }).setChannel 0
        { timerChannel with currentCount := 1, cbInstalled := true })) = some [.cb 0, .cb 1] := by decide

/-- Table "TRIG", other cases, third row. -/
theorem test_trig_zero_crossing :
    endState (exec (.trig 0 true) (stateWith 0 { counterChannel with currentCount := 1, interruptEnabled := true,
                                                                     cbInstalled := true }))
      = some { stateWith 0 { counterChannel with currentCount := 256, interruptEnabled := true, cbInstalled := true,
                                                 interruptPending := true, lastTriggerState := true } with
               events := [.cb 0] } := by decide

/-- Table "TRIG", other cases, second row: Timer mode records the level (C1). -/
theorem test_trig_timer_mode :
    channelAfter 0 (exec (.trig 0 true) (stateWith 0 { counterChannel with mode := .timer }))
      = some { counterChannel with mode := .timer, lastTriggerState := true } := by decide

/-- Table "HASPEND and ACK", second and fourth rows. -/
theorem test_haspend : responseOf (exec .haspend (stateWith 2 (requesting 0x44))) = some (.bit true) := by decide
theorem test_haspend_disabled :
    responseOf (exec .haspend (stateWith 2 { requesting 0x44 with interruptEnabled := false }))
      = some (.bit false) := by decide

/-- Table "HASPEND and ACK", third row: channel 0 is pending and disabled, so channel 2 is taken. -/
theorem test_ack :
    endState (exec .ack ((stateWith 2 (requesting 0x44)).setChannel 0
        { requesting 0x40 with interruptEnabled := false }))
      = some { (stateWith 2 { requesting 0x44 with interruptPending := false }).setChannel 0
                 { requesting 0x40 with interruptEnabled := false } with response := .byte 0x44 } := by decide

/-- Table "HASPEND and ACK", fifth row: the handler answers 0x99 for channel 3. -/
theorem test_ack_handler :
    (endState (step { issuing 0x0B0000000000 with
        ch := (stateWith 3 (requesting 0x46)).ch, ctl := ⟨0, true, true⟩ })).map (fun s => (s.response, s.events))
      = some (.byte 0x99, [.hnd 3]) := by decide

theorem test_sethnd :
    (endState (exec (.sethnd true) State.reset)).map (·.ctl.handlerInstalled) = some true := by decide

/-! ### The step -/

/-- Table "Decode and refusal": before INIT a well-formed command is refused, the decoder's reasons come first. -/
theorem test_step_before_init :
    refusal (step { issuing 0x060000000000 with ctl := State.beforeInit.ctl }) = some .beforeInit
      ∧ refusal (step { issuing 0x0D0000000001 with ctl := State.beforeInit.ctl }) = some .unassignedOp
      ∧ refusal (step { issuing 0x060100000000 with ctl := State.beforeInit.ctl }) = some .reservedBits := by decide

/-- R60: the index advances over a no-op of R51. -/
theorem test_step_advances : (endState (step (issuing 0x02FF000000FF))).map (·.index) = some 1 := by decide

theorem test_withFetchWord :
    responseOf (step (State.reset.withFetchWord 48 0x080200000000)) = some (.byte 0x00) := by decide

/-! ### Witnesses: a state and operands that meet each statement's hypotheses -/

theorem witness_BeforeInitOnlyInitRuns :
    State.beforeInit.ctl.initialised = false ∧ ∀ freq, Instr.tick ≠ .init freq :=
  ⟨rfl, fun _ => nofun⟩

theorem witness_InitialisedBlockTakesEveryCommand : State.reset.ctl.initialised = true := rfl

theorem witness_StepRunsTheDecodedInstruction :
    (issuing 0x060000000000).program[(issuing 0x060000000000).index]? = some ⟨0x060000000000, 0x99⟩
      ∧ decode 0x060000000000 = .instr .tick
      ∧ ∃ t, exec .tick { issuing 0x060000000000 with hostAnswer := 0x99 } = .next t :=
  ⟨rfl, by decide, _, rfl⟩

theorem witness_StepAdvancesTheIndexByOne : ∃ t, step (issuing 0x060000000000) = .next t := ⟨_, rfl⟩

theorem witness_RunOfCommandListRunsItsInstructions :
    ({ State.reset with program := [⟨encode .ack, 1⟩, ⟨encode (.wtc 1 2), 3⟩, ⟨0, 0⟩], index := 1 } : State).program
      = [⟨encode .ack, 1⟩] ++ [((.wtc 1 2 : Instr), (3 : Byte))].map (fun c => ⟨encode c.1, c.2⟩) ++ [⟨0, 0⟩] := rfl

theorem witness_EncodeInvertsDecode : decode 0x02FF000000FF = .instr (.wctl 255 255) := by decide

/-- Each clause of the table statement: a word of a row, and a word of none. -/
theorem witness_DecodeAgreesWithOpcodeTable :
    decode 0x0B0000000000 = .instr .ack ∧ decode 0x0B0000000001 = .refused .reservedBits := by decide

/-- Each clause of the refusal statement at the boundary values of its field. -/
theorem witness_DecoderRefusesExactlyAsNamed :
    decode (0x0C#8 ++ 0x00#8 ++ 0#32) = .refused .unassignedOp
      ∧ decode (0x09#8 ++ 0x01#8 ++ 1#32) = .refused .reservedBits
      ∧ decode (0x03#8 ++ 0xFF#8 ++ 256#32) = .refused .reservedBits
      ∧ decode (0x03#8 ++ 0xFF#8 ++ 255#32) = .instr (.wtc 0xFF 0xFF)
      ∧ decode (0x05#8 ++ 0xFF#8 ++ 2#32) = .refused .reservedBits
      ∧ decode (0x08#8 ++ 0xFF#8 ++ 1#32) = .refused .reservedBits := by decide

/-- For the statements of WCTL, WTC, SETVEC, SETCB, TICK, TRIG, HASPEND, SETHND and the repeated reads, whose only
hypothesis is that the block is initialised; indices 3 and 4 are the boundary of a valid index. -/
theorem witness_initialised :
    State.reset.ctl.initialised = true ∧ (∃ j : ChannelId, (3 : Byte).toNat = j.val)
      ∧ ∀ j : ChannelId, (4 : Byte).toNat ≠ j.val := ⟨rfl, by decide, by decide⟩

theorem witness_SetvecWritesOneVector : State.reset.ctl.initialised = true ∧ (1#24 ≠ 0) := ⟨rfl, by decide⟩

theorem witness_GetvecAnswersTheStoredVector :
    State.reset.ctl.initialised = true ∧ (3 : Byte).toNat = (3 : ChannelId).val ∧ 4 ≤ (4 : Byte).toNat :=
  ⟨rfl, rfl, by decide⟩

theorem witness_OutOfRangeIndexChangesNothing :
    State.reset.ctl.initialised = true ∧ (Instr.getvec 4).index? = some 4 ∧ 4 ≤ (4 : Byte).toNat :=
  ⟨rfl, rfl, by decide⟩

theorem witness_ChannelsAreIndependent :
    (Instr.wtc 1 5).index? = some 1 ∧ (1 : Byte).toNat ≠ (0 : ChannelId).val
      ∧ ∃ t, exec (.wtc 1 5) State.reset = .next t := ⟨rfl, by decide, _, rfl⟩

/-- The two clauses of the count-down at the counts where they meet. -/
theorem witness_CountDownFloorsAndNeverLeavesZero :
    1 < ((stateWith 0 { counterChannel with currentCount := 2 }).channel 0).currentCount
      ∧ ((stateWith 0 { counterChannel with currentCount := 1 }).channel 0).currentCount ≤ 1
      ∧ (State.reset.channel 0).currentCount ≤ 1 := by decide

theorem witness_EdgeDetectorSeesTheSelectedChange :
    counterChannel.seesEdge true = true ∧ false = counterChannel.lastTriggerState := by decide

theorem witness_TrigCountsSelectedEdges : State.reset.ctl.initialised = true ∧ (1#31 ≠ 0) := ⟨rfl, by decide⟩

theorem witness_CallbackEventsAreTheZeroCrossings :
    (∃ t, exec .tick (stateWith 0 { timerChannel with currentCount := 1, cbInstalled := true }) = .next t)
      ∧ ∃ t, exec .ack State.reset = .next t := ⟨⟨_, rfl⟩, _, rfl⟩

theorem witness_PendingLatchTable : ∃ t, exec .ack (stateWith 1 (requesting 0x42)) = .next t := ⟨_, rfl⟩

theorem witness_RunningFlagTable :
    (∃ t, exec .tick State.reset = .next t) ∧ (State.reset.channel 0).isRunning = false := ⟨⟨_, rfl⟩, rfl⟩

theorem witness_PrescalerPhaseIsWrittenOnlyByTickAndInit :
    (∃ t, exec .tick (stateWith 0 counterChannel) = .next t) ∧ (∀ freq, Instr.tick ≠ .init freq)
      ∧ ((stateWith 0 counterChannel).channel 0).mode = .counter := ⟨⟨_, rfl⟩, fun _ => nofun, by decide⟩

theorem witness_EveryFieldHasItsOwnWriters :
    (∃ t, exec (.setvec 1 2) State.reset = .next t) ∧ (∀ freq, Instr.setvec 1 2 ≠ .init freq)
      ∧ (∀ idx v, Instr.setvec 1 2 = .setvec idx v → idx.toNat ≠ (0 : ChannelId).val) := by
  refine ⟨⟨_, rfl⟩, fun _ => nofun, ?_⟩
  intro idx v h
  cases h
  decide

/-- A channel at phase 0 and a full count. -/
def fullTimer : State := stateWith 0 { timerChannel with triggerCount := 0 }

theorem witness_TimerChannelIsPeriodic :
    fullTimer.ctl.initialised = true ∧ (fullTimer.channel 0).mode = .timer ∧ (fullTimer.channel 0).isRunning = true
      ∧ (fullTimer.channel 0).triggerCount = 0
      ∧ (fullTimer.channel 0).currentCount = reload (fullTimer.channel 0).timeConstant := by decide

/-- A Counter-mode channel at a full count of 5. -/
def fullCounter : State := stateWith 1 { counterChannel with timeConstant := 5 }

theorem witness_CounterChannelCountsRisingPairs :
    fullCounter.ctl.initialised = true ∧ (1 : Byte).toNat = (1 : ChannelId).val
      ∧ (fullCounter.channel 1).mode = .counter ∧ (fullCounter.channel 1).triggerEdge = .rising
      ∧ (fullCounter.channel 1).isRunning = true
      ∧ (fullCounter.channel 1).currentCount = reload (fullCounter.channel 1).timeConstant ∧ 0 < 1 := by decide

/-- A phase of 15 leaves one TICK, and a phase of 16 or more under the prescaler 16 leaves one as well. -/
theorem witness_FirstDecrementAfterRestart :
    (stateWith 0 timerChannel).ctl.initialised = true ∧ (0 : Byte).toNat = (0 : ChannelId).val
      ∧ ((stateWith 0 timerChannel).channel 0).mode = .timer
      ∧ 0 < max 1 (((stateWith 0 timerChannel).channel 0).prescaler.divisor
          - ((stateWith 0 timerChannel).channel 0).triggerCount) := by decide

theorem witness_AckTakesTheLowestRequestingChannel :
    (stateWith 1 (requesting 0x42)).ctl.initialised = true
      ∧ ((stateWith 1 (requesting 0x42)).channel 1).interruptEnabled = true
      ∧ ((stateWith 1 (requesting 0x42)).channel 1).interruptPending = true
      ∧ ∀ j : ChannelId, j < 1 → ((stateWith 1 (requesting 0x42)).channel j).interruptEnabled = false
          ∨ ((stateWith 1 (requesting 0x42)).channel j).interruptPending = false := by decide

/-- Each clause: no request, and a request whose answer is 0x00. -/
theorem witness_AckAnswersZeroInBothCases :
    (∀ j : ChannelId, (State.reset.channel j).requests = false)
      ∧ (stateWith 0 (requesting 0)).ctl.initialised = true
      ∧ ((stateWith 0 (requesting 0)).channel 0).requests = true
      ∧ (∀ j : ChannelId, j < 0 → ((stateWith 0 (requesting 0)).channel j).requests = false)
      ∧ (if (stateWith 0 (requesting 0)).ctl.handlerInstalled then (stateWith 0 (requesting 0)).hostAnswer
          else ((stateWith 0 (requesting 0)).channel 0).interruptVector) = 0x00 := by decide

theorem witness_AcksDrainAllRequests :
    (stateWith 1 (requesting 0x42)).ctl.initialised = true
      ∧ (channelIds.filter fun j => ((stateWith 1 (requesting 0x42)).channel j).requests).length = 1 := by decide

theorem witness_DisabledPendingInterruptReappears :
    (stateWith 0 (requesting 0)).ctl.initialised = true ∧ (0 : Byte).toNat = (0 : ChannelId).val
      ∧ ((stateWith 0 (requesting 0)).channel 0).interruptPending = true
      ∧ (0x00 : Byte).getLsbD 7 = false ∧ (0x00 : Byte).getLsbD 1 = false
      ∧ (0x80 : Byte).getLsbD 7 = true ∧ (0x80 : Byte).getLsbD 1 = false ∧ (0x02 : Byte).getLsbD 1 = true := by decide

theorem witness_ReadsAndTheirSideEffects :
    State.reset.ctl.initialised = true ∧ (∀ idx, Instr.tick ≠ .getvec idx) ∧ Instr.tick ≠ .haspend
      ∧ Instr.tick ≠ .ack ∧ ∃ t, exec .tick State.reset = .next t :=
  ⟨rfl, fun _ => nofun, by decide, by decide, _, rfl⟩

theorem witness_ClockFrequencyNeverMatters : ∃ t, exec .tick fullTimer = .next t := ⟨_, rfl⟩

theorem witness_HostAnswerIsReadOnlyByAHandledAck :
    (Instr.ack = .ack → State.reset.ctl.handlerInstalled = false
        ∨ ∀ j : ChannelId, (State.reset.channel j).requests = false)
      ∧ ∃ t, exec .ack State.reset = .next t := ⟨fun _ => .inl rfl, _, rfl⟩

/-- A sound running channel takes a step. -/
theorem witness_EveryStepKeepsTheInvariant :
    ({ fullTimer with program := [⟨0x060000000000, 0⟩] } : State).Inv
      ∧ ∃ t, step { fullTimer with program := [⟨0x060000000000, 0⟩] } = .next t := ⟨by decide, _, rfl⟩

end Sys2Proof.Tests
end

section
/-!
The reload value of a time constant (R18).
-/
namespace Sys2Proof.Proofs
open Sys2Proof.Machine

/-- Settles O16: the equation is `reload`'s definition, and the two ends of its range are `reload_pos` and
`reload_le`. -/
theorem reloadOfTimeConstant : Obligations.ReloadOfTimeConstant := by
  intro k
  have value : reload k = (if k = 0x00 then 256 else k.toNat) := rfl
  exact ⟨value, reload_pos k, reload_le k⟩

end Sys2Proof.Proofs
end

section
/-!
The running flag (R30): what each write of a channel leaves in it, then what every instruction leaves in it, and that
TICK and TRIG do not count a stopped channel.
-/
namespace Sys2Proof.Proofs
open Sys2Proof.Machine

/-! ### The flag in each write of a channel -/

/-- Control bits 1 and 2 each stop the channel (R76, R100). -/
@[simp] theorem writeControl_isRunning (b : Byte) (c : Channel) :
    (c.writeControl b).isRunning = (c.isRunning && !b.getLsbD 1 && !b.getLsbD 2) := by
  rw [Channel.writeControl_eq]
  rfl

@[simp] theorem started_isRunning (k : Byte) (c : Channel) : (c.started k).isRunning = true := rfl

@[simp] theorem counted_isRunning (c : Channel) : c.counted.isRunning = c.isRunning := by
  unfold Channel.counted
  split <;> rfl

@[simp] theorem ticked_isRunning (c : Channel) : c.ticked.isRunning = c.isRunning := by
  unfold Channel.ticked
  split
  · split
    · rfl
    · exact counted_isRunning _
  · rfl

@[simp] theorem triggered_isRunning (level : Bool) (c : Channel) :
    (c.triggered level).isRunning = c.isRunning := by
  unfold Channel.triggered
  split
  · exact counted_isRunning c
  · rfl

/-! ### A stopped channel does not count -/

theorem ticked_of_stopped {c : Channel} (stopped : c.isRunning = false) : c.ticked = c := by
  simp [Channel.ticked, stopped]

theorem triggered_of_stopped {c : Channel} (level : Bool) (stopped : c.isRunning = false) :
    c.triggered level = { c with lastTriggerState := level } := by
  simp [Channel.triggered, stopped]

/-! ### Every instruction -/

/-- The three writers of the running flag: INIT, WCTL and WTC (R30). -/
theorem after_isRunning (i : Instr) (s : State) (j : ChannelId) :
    ((after i s).channel j).isRunning =
      match i with
      | .init _ => false
      | .wctl idx b =>
          if idx.toNat = j.val then (s.channel j).isRunning && !b.getLsbD 1 && !b.getLsbD 2
          else (s.channel j).isRunning
      | .wtc idx _ => if idx.toNat = j.val then true else (s.channel j).isRunning
      | _ => (s.channel j).isRunning := by
  rw [after_channel]
  cases i with
  | init freq => rfl
  | tick => exact ticked_isRunning _
  | getvec idx => rfl
  | sethnd install => rfl
  | haspend => rfl
  | wctl idx b | wtc idx k | setcb idx install | trig idx level | setvec idx v | ack =>
    -- a write guarded by the channel it is addressed to
    dsimp only
    split <;> simp

/-- What starts and stops a channel, as R30 words it. -/
theorem after_isRunning_iff (i : Instr) (s : State) (j : ChannelId) :
    ((after i s).channel j).isRunning = true ↔
      (∃ idx k, i = .wtc idx k ∧ idx.toNat = j.val)
        ∨ ((s.channel j).isRunning = true ∧ (∀ freq, i ≠ .init freq)
            ∧ ∀ idx b, i = .wctl idx b → idx.toNat = j.val → b.getLsbD 1 = false ∧ b.getLsbD 2 = false) := by
  rw [after_isRunning]
  cases i with
  | wctl idx b => by_cases here : idx.toNat = j.val <;> simp [here, and_assoc]
  | wtc idx k => by_cases here : idx.toNat = j.val <;> simp [here]
  | _ => simp

theorem after_currentCount_of_stopped {i : Instr} {s : State} {j : ChannelId}
    (stopped : (s.channel j).isRunning = false) (counting : i = .tick ∨ ∃ idx level, i = .trig idx level) :
    ((after i s).channel j).currentCount = (s.channel j).currentCount := by
  rw [after_channel]
  obtain rfl | ⟨idx, level, rfl⟩ := counting
  · exact congrArg Channel.currentCount (ticked_of_stopped stopped)
  · dsimp only
    split
    · rw [triggered_of_stopped level stopped]
    · rfl

/-- Settles O32: a next state is `after`'s, so the flag's table is `after_isRunning_iff` and the count of a stopped
channel is `after_currentCount_of_stopped`. -/
theorem runningFlagTable : Obligations.RunningFlagTable := by
  intro i s t j completes
  obtain ⟨rfl, -⟩ := exec_eq_next completes
  exact ⟨after_isRunning_iff i s j, after_currentCount_of_stopped⟩

end Sys2Proof.Proofs
end

section
/-!
SETVEC (R102): the decoder on a word whose data field is written as its reserved part and its byte operand, then the
instruction's effect.
-/
namespace Sys2Proof.Proofs
open Sys2Proof.Machine

/-! ### A data field in two parts -/

@[simp] theorem dataByte_append (high : BitVec 24) (v : Byte) : dataByte (high ++ v) = v :=
  BitVec.extractLsb'_append_eq_right

@[simp] theorem aboveByte_append (high : BitVec 24) (v : Byte) : aboveByte (high ++ v) = high :=
  BitVec.extractLsb'_append_eq_left

/-- A word written in four parts is the word of the three fields of R80. -/
theorem append_eq_packWord (op idx : BitVec 8) (high : BitVec 24) (v : Byte) :
    op ++ idx ++ high ++ v = packWord op idx (high ++ v) :=
  BitVec.append_assoc

/-! ### The decoder on op 0x07 -/

/-- What the decoder makes of every word of op 0x07: SETVEC, if data[31:8] is zero (R82, R84). -/
theorem decode_setvec_word (idx v : Byte) (high : BitVec 24) :
    decode (0x07#8 ++ idx ++ high ++ v) = unlessReserved (high == 0) (.setvec idx v) :=
  calc decode (0x07#8 ++ idx ++ high ++ v)
    _ = decode (packWord 0x07 idx (high ++ v)) := congrArg decode (append_eq_packWord ..)
    _ = decodeFields 0x07 idx (high ++ v) := decode_packWord ..
    _ = unlessReserved (aboveByte (high ++ v) == 0) (.setvec idx (dataByte (high ++ v))) := rfl
    _ = unlessReserved (high == 0) (.setvec idx v) := by rw [aboveByte_append, dataByte_append]

@[simp] theorem unlessReserved_true (i : Instr) : unlessReserved true i = .instr i := rfl

@[simp] theorem unlessReserved_false (i : Instr) : unlessReserved false i = .refused .reservedBits := rfl

/-- Settles O20: both outcomes of the decoder are `decode_setvec_word`'s, and the state an initialised block is left in
is `after`'s, whose laws give SETVEC's effect and frame. -/
theorem setvecWritesOneVector : Obligations.SetvecWritesOneVector := by
  refine ⟨fun idx v => ?_, fun idx v high reserved => ?_, fun idx v s initialised => ?_⟩
  · exact (decode_setvec_word idx v 0).trans (unlessReserved_true _)
  · rw [decode_setvec_word, beq_false_of_ne reserved, unlessReserved_false]
  · exact ⟨after (.setvec idx v) s, exec_of_initialised initialised _, after_channel _ s, after_ctl _ s,
      after_sameHost _ s, after_response _ s, after_events _ s⟩

end Sys2Proof.Proofs
end

section
/-!
The zero-crossing of one channel (R110): what it leaves in each channel and on the event port.
-/
namespace Sys2Proof.Proofs
open Sys2Proof.Machine

/-- The latch by cases, as R110 words it: set if the interrupt is enabled, else kept. -/
theorem latchedPending_eq_ite (c : Channel) :
    c.latchedPending = if c.interruptEnabled then true else c.interruptPending := by
  unfold Channel.latchedPending
  cases c.interruptEnabled <;> rfl

theorem reloaded_eq (c : Channel) :
    c.reloaded =
      { c with
        currentCount := reload c.timeConstant
        interruptPending := if c.interruptEnabled then true else c.interruptPending } := by
  rw [Channel.reloaded, latchedPending_eq_ite]

@[simp] theorem zeroCrossing_channel (s : State) (i j : ChannelId) :
    (s.zeroCrossing i).channel j = if j = i then (s.channel i).reloaded else s.channel j := by
  rw [State.zeroCrossing_eq]
  exact State.setChannel_channel s i j _

@[simp] theorem zeroCrossing_events (s : State) (i : ChannelId) :
    (s.zeroCrossing i).events = s.events ++ (s.channel i).cbEvents i := by
  rw [State.zeroCrossing_eq]

/-- The frame of a zero-crossing: the Controller, the host's side and the response port. -/
theorem zeroCrossing_frame (s : State) (i : ChannelId) :
    (s.zeroCrossing i).ctl = s.ctl ∧ s.SameHost (s.zeroCrossing i)
      ∧ (s.zeroCrossing i).response = s.response := by
  rw [State.zeroCrossing_eq]
  exact ⟨rfl, ⟨rfl, rfl, rfl⟩, rfl⟩

/-- Settles O25: the one channel written is `reloaded`, the event is its `cbEvents`, and the rest is
`zeroCrossing_frame`. -/
theorem zeroCrossingReloadsLatchesAndNotifies : Obligations.ZeroCrossingReloadsLatchesAndNotifies := by
  intro s i
  refine ⟨fun j => ?_, zeroCrossing_events s i, zeroCrossing_frame s i⟩
  rw [zeroCrossing_channel, reloaded_eq]

end Sys2Proof.Proofs
end

section
/-!
The edge detector (R112).
-/
namespace Sys2Proof.Proofs
open Sys2Proof.Machine

/-- The two changes of level the detector sees, each under its own selection. -/
theorem seesEdge_iff (c : Channel) (level : Bool) :
    c.seesEdge level = true ↔
      (c.triggerEdge = .rising ∧ c.lastTriggerState = false ∧ level = true)
        ∨ (c.triggerEdge = .falling ∧ c.lastTriggerState = true ∧ level = false) := by
  simp [Channel.seesEdge, and_assoc]

/-- Both changes of `seesEdge_iff` need two different levels. -/
theorem seesEdge_lastTriggerState (c : Channel) : c.seesEdge c.lastTriggerState = false := by
  rw [Bool.eq_false_iff, Ne, seesEdge_iff]
  rintro (⟨-, low, high⟩ | ⟨-, high, low⟩) <;> exact absurd (low.symm.trans high) Bool.false_ne_true

/-- Settles O27, by `seesEdge_iff` and `seesEdge_lastTriggerState`. -/
theorem edgeDetectorSeesTheSelectedChange : Obligations.EdgeDetectorSeesTheSelectedChange := by
  intro c level
  refine ⟨seesEdge_iff c level, ?_⟩
  rintro rfl
  exact seesEdge_lastTriggerState c

end Sys2Proof.Proofs
end

section
/-!
TRIG (R115): the decoder on a word whose data field is written as its reserved part and its bit operand, then the
instruction's effect on the channel its index names and the one event it can make.
-/
namespace Sys2Proof.Proofs
open Sys2Proof.Machine

/-! ### A data field in two parts -/

@[simp] theorem dataBit_append (high : BitVec 31) (b : Bool) : dataBit (high ++ BitVec.ofBool b) = b := by
  rw [dataBit, BitVec.getLsbD_append]
  simp

@[simp] theorem aboveBit_append (high : BitVec 31) (b : Bool) : aboveBit (high ++ BitVec.ofBool b) = high :=
  BitVec.extractLsb'_append_eq_left

/-- A word written in four parts, the last a bit, is the word of the three fields of R80. -/
theorem append_bit_eq_packWord (op idx : BitVec 8) (high : BitVec 31) (b : Bool) :
    op ++ idx ++ high ++ BitVec.ofBool b = packWord op idx (high ++ BitVec.ofBool b) :=
  BitVec.append_assoc

/-! ### The decoder on op 0x05 -/

/-- What the decoder makes of every word of op 0x05: TRIG, if data[31:1] is zero (R82, R84). -/
theorem decode_trig_word (idx : Byte) (high : BitVec 31) (level : Bool) :
    decode (0x05#8 ++ idx ++ high ++ BitVec.ofBool level) = unlessReserved (high == 0) (.trig idx level) := by
  have fields : decodeFields 0x05 idx (high ++ BitVec.ofBool level)
      = unlessReserved (aboveBit (high ++ BitVec.ofBool level) == 0)
          (.trig idx (dataBit (high ++ BitVec.ofBool level))) := rfl
  rw [append_bit_eq_packWord, decode_packWord]
  exact fields.trans (by rw [aboveBit_append, dataBit_append])

/-! ### The channel TRIG is addressed to -/

/-- A TRIG to a channel by cases: no count, a count above 1, a crossing (R111, R115). -/
theorem triggered_eq (level : Bool) (c : Channel) :
    c.triggered level =
      if c.mode = .counter ∧ c.isRunning = true ∧ c.seesEdge level = true then
        if 1 < c.currentCount then
          { c with currentCount := c.currentCount - 1, lastTriggerState := level }
        else
          { c with
            currentCount := reload c.timeConstant
            interruptPending := c.interruptEnabled || c.interruptPending
            lastTriggerState := level }
      else { c with lastTriggerState := level } := by
  have reordered : (c.mode = .counter ∧ c.seesEdge level = true ∧ c.isRunning = true)
      ↔ (c.mode = .counter ∧ c.isRunning = true ∧ c.seesEdge level = true) := and_congr_right' and_comm
  simp only [Channel.triggered, reordered]
  by_cases counts : c.mode = .counter ∧ c.isRunning = true ∧ c.seesEdge level = true
  · simp only [if_pos counts, Channel.counted]
    by_cases above : 1 < c.currentCount
    · simp only [if_pos above, if_neg (Nat.not_le.mpr above)]
    · simp only [if_neg above, if_pos (Nat.not_lt.mp above)]
      rfl
  · simp only [if_neg counts]

theorem after_trig_channel (idx : Byte) (level : Bool) (s : State) (j : ChannelId) :
    (after (.trig idx level) s).channel j =
      if idx.toNat = j.val then (s.channel j).triggered level else s.channel j :=
  after_channel _ s j

/-! ### The event of a TRIG -/

theorem trigCrosses_iff (c : Channel) (level : Bool) :
    c.trigCrosses level = true ↔
      c.mode = .counter ∧ c.isRunning = true ∧ c.seesEdge level = true ∧ c.currentCount ≤ 1 := by
  simp [Channel.trigCrosses, and_assoc]

/-- TRIG's events on its channel, by the crossing predicate of the claims (R110, R115). -/
theorem trigEvents_eq (c : Channel) (level : Bool) (i : ChannelId) :
    c.trigEvents level i = if c.trigCrosses level = true then c.cbEvents i else [] := by
  have reordered : c.trigCrosses level = true ↔
      (c.mode = .counter ∧ c.seesEdge level = true ∧ c.isRunning = true ∧ c.currentCount ≤ 1) :=
    (trigCrosses_iff c level).trans (and_congr_right' and_left_comm)
  simp only [Channel.trigEvents, reordered]

@[simp] theorem mem_cbEvents (c : Channel) (i : ChannelId) (e : Event) :
    e ∈ c.cbEvents i ↔ e = .cb i ∧ c.cbInstalled = true := by
  unfold Channel.cbEvents
  split <;> simp [*]

theorem mem_trigEvents (c : Channel) (level : Bool) (i : ChannelId) (e : Event) :
    e ∈ c.trigEvents level i ↔ e = .cb i ∧ c.trigCrosses level = true ∧ c.cbInstalled = true := by
  rw [trigEvents_eq]
  split <;> simp [*]

theorem cbEvents_length_le_one (c : Channel) (i : ChannelId) : (c.cbEvents i).length ≤ 1 := by
  unfold Channel.cbEvents
  split <;> simp

theorem trigEvents_length_le_one (c : Channel) (level : Bool) (i : ChannelId) :
    (c.trigEvents level i).length ≤ 1 := by
  rw [trigEvents_eq]
  split
  · exact cbEvents_length_le_one c i
  · exact Nat.zero_le 1

/-- TRIG's events are those of the channel its index names, and none if it names none (R51, R115). -/
theorem after_trig_events (idx : Byte) (level : Bool) (s : State) :
    (after (.trig idx level) s).events =
      (channelOf idx).elim [] fun i => (s.channel i).trigEvents level i := by
  refine (after_events _ s).trans ?_
  dsimp only
  obtain ⟨i, named, value⟩ | ⟨unnamed, beyond⟩ := channelOf_cases idx
  · rw [named, value]
    fin_cases i <;> simp [channelIds]
  · have other : ∀ j : ChannelId, idx.toNat ≠ j.val := fun j => by omega
    simp [unnamed, other]

theorem after_trig_events_length_le_one (idx : Byte) (level : Bool) (s : State) :
    (after (.trig idx level) s).events.length ≤ 1 := by
  rw [after_trig_events]
  cases channelOf idx with
  | none => exact Nat.zero_le 1
  | some i => exact trigEvents_length_le_one _ level i

theorem cb_mem_after_trig_events (idx : Byte) (level : Bool) (s : State) (j : ChannelId) :
    .cb j ∈ (after (.trig idx level) s).events ↔
      (idx.toNat = j.val ∧ (s.channel j).trigCrosses level = true ∧ (s.channel j).cbInstalled = true) := by
  rw [after_trig_events, ← channelOf_eq_some]
  cases channelOf idx with
  | none => simp
  | some i =>
    rw [Option.elim_some, mem_trigEvents, Event.cb.injEq, Option.some.injEq, eq_comm]
    exact and_congr_right fun here => by rw [here]

/-- Settles O29: both outcomes of the decoder are `decode_trig_word`'s, and the state an initialised block is left in
is `after`'s, whose addressed channel is `triggered_eq`'s and whose events are `after_trig_events`'. -/
theorem trigCountsSelectedEdges : Obligations.TrigCountsSelectedEdges := by
  refine ⟨fun idx level => ?_, fun idx level high reserved => ?_, fun idx level s initialised => ?_⟩
  · exact (decode_trig_word idx 0 level).trans (unlessReserved_true _)
  · rw [decode_trig_word, beq_false_of_ne reserved, unlessReserved_false]
  · refine ⟨after (.trig idx level) s, exec_of_initialised initialised _, fun j => ?_, after_ctl _ s,
      after_sameHost _ s, after_response _ s, after_trig_events_length_le_one idx level s,
      cb_mem_after_trig_events idx level s⟩
    rw [after_trig_channel, triggered_eq]

end Sys2Proof.Proofs
end

section
/-!
HASPEND (R120): the decoder on every word of its op, then its answer, the OR of the four requests.
-/
namespace Sys2Proof.Proofs
open Sys2Proof.Machine

/-! ### The decoder on op 0x0A -/

/-- What the decoder makes of every word of op 0x0A: HASPEND, if idx and data are zero (R82, R84). -/
theorem decode_haspend_word (idx : BitVec 8) (data : BitVec 32) :
    decode (0x0A#8 ++ idx ++ data) = unlessReserved (idx == 0 && data == 0) .haspend :=
  decode_packWord 0x0A idx data

theorem decode_haspend_reserved {idx : BitVec 8} {data : BitVec 32} (reserved : idx ≠ 0 ∨ data ≠ 0) :
    decode (0x0A#8 ++ idx ++ data) = .refused .reservedBits := by
  have nonzero : (idx == 0 && data == 0) = false := by
    obtain idxSet | dataSet := reserved
    · rw [beq_false_of_ne idxSet, Bool.false_and]
    · rw [beq_false_of_ne dataSet, Bool.and_false]
  rw [decode_haspend_word, nonzero, unlessReserved_false]

/-! ### The OR of the requests -/

theorem requests_iff (c : Channel) :
    c.requests = true ↔ c.interruptEnabled = true ∧ c.interruptPending = true :=
  Bool.and_eq_true_iff

/-- No channel is left out of the block's list of them (R62). -/
@[simp] theorem mem_channelIds (j : ChannelId) : j ∈ channelIds := by
  fin_cases j <;> simp [channelIds]

/-- The arbiter's OR ranges over every channel: one that is pending but not enabled does not count (R120, R146). -/
theorem any_requests_iff (s : State) :
    (channelIds.any fun j => (s.channel j).requests) = true ↔
      ∃ j : ChannelId, (s.channel j).interruptEnabled = true ∧ (s.channel j).interruptPending = true := by
  simp only [List.any_eq_true, mem_channelIds, true_and, requests_iff]

theorem any_requests_eq_false {s : State} (quiet : ∀ j : ChannelId, (s.channel j).requests = false) :
    (channelIds.any fun j => (s.channel j).requests) = false :=
  List.any_eq_false.mpr fun j _ => Bool.eq_false_iff.mp (quiet j)

/-- A channel is disabled, with nothing pending, after INIT (R130). -/
theorem after_init_requests (freq : Frequency) (s : State) (j : ChannelId) :
    ((after (.init freq) s).channel j).requests = false := by
  rw [after_channel]
  rfl

/-! ### The instruction -/

/-- HASPEND writes the two output ports and nothing else (R120). -/
theorem exec_haspend {s : State} (initialised : s.ctl.initialised = true) :
    exec .haspend s =
      .next { s with response := .bit (channelIds.any fun j => (s.channel j).requests), events := [] } :=
  exec_of_initialised initialised .haspend

theorem exec_haspend_of_quiet {s : State} (initialised : s.ctl.initialised = true)
    (quiet : ∀ j : ChannelId, (s.channel j).requests = false) :
    exec .haspend s = .next { s with response := .bit false, events := [] } := by
  rw [exec_haspend initialised, any_requests_eq_false quiet]

/-- Settles O38: the two outcomes of the decoder are `decode_haspend_word`'s, the answer is `exec_haspend`'s with
`any_requests_iff`, and after INIT no channel requests. -/
theorem haspendAnswersTheOrOfRequests : Obligations.HaspendAnswersTheOrOfRequests := by
  refine ⟨?_, fun idx data => decode_haspend_reserved, fun s initialised => ?_, fun freq s => ?_⟩
  · exact (decode_haspend_word 0 0).trans (unlessReserved_true _)
  · exact ⟨_, exec_haspend initialised, any_requests_iff s⟩
  · exact ⟨after (.init freq) s, _, rfl, exec_haspend_of_quiet rfl (after_init_requests freq s), rfl⟩

end Sys2Proof.Proofs
end

section
/-!
Callback events (R154): which channels cross zero in an instruction, and the events of every instruction but ACK as those
of the channels that do.
-/
namespace Sys2Proof.Proofs
open Sys2Proof.Machine

/-! ### The crossing predicate of TICK -/

theorem tickCrosses_iff (c : Channel) :
    c.tickCrosses = true ↔
      c.mode = .timer ∧ c.isRunning = true ∧ c.prescaler.divisor ≤ c.triggerCount + 1 ∧ c.currentCount ≤ 1 := by
  simp [Channel.tickCrosses, Channel.countsTick, and_assoc]

/-- TICK's events on one channel, by the crossing predicate of the claims (R110, R113). -/
theorem tickEvents_eq (c : Channel) (i : ChannelId) :
    c.tickEvents i = if c.tickCrosses = true then c.cbEvents i else [] := by
  simp only [tickCrosses_iff]
  rfl

/-! ### Events as a sweep over the channels -/

/-- The events of the channels that cross zero in the instruction, in index order (R62, R143). -/
def crossingEvents (i : Instr) (s : State) : List Event :=
  channelIds.flatMap fun j => if zeroCrosses i s j = true then (s.channel j).cbEvents j else []

/-- An instruction that crosses no channel makes no callback event. -/
theorem crossingEvents_of_no_crossing {i : Instr} {s : State} (still : ∀ j, zeroCrosses i s j = false) :
    crossingEvents i s = [] := by
  simp [crossingEvents, still]

theorem crossingEvents_tick (s : State) :
    crossingEvents .tick s = channelIds.flatMap fun j => (s.channel j).tickEvents j := by
  simp only [tickEvents_eq]
  rfl

/-- For TRIG the channel that crosses is the one its index names (R115). -/
theorem crossingEvents_trig (idx : Byte) (level : Bool) (s : State) :
    crossingEvents (.trig idx level) s =
      channelIds.flatMap fun j => if idx.toNat = j.val then (s.channel j).trigEvents level j else [] := by
  simp only [crossingEvents, zeroCrosses, Bool.and_eq_true, beq_iff_eq, ite_and, trigEvents_eq]

theorem after_events_of_ne_ack {i : Instr} (notAck : i ≠ .ack) (s : State) :
    (after i s).events = crossingEvents i s := by
  rw [after_events]
  cases i with
  | tick => exact (crossingEvents_tick s).symm
  | trig idx level => exact (crossingEvents_trig idx level s).symm
  | ack => exact absurd rfl notAck
  | _ => exact (crossingEvents_of_no_crossing fun _ => rfl).symm

/-! ### The sweep as a filter -/

/-- The callbacks of the channels a condition picks, one channel at a time, are those of the picked channels that have
one installed; the order of the channels stays. -/
theorem flatMap_cbEvents (picks : ChannelId → Bool) (s : State) (ids : List ChannelId) :
    (ids.flatMap fun j => if picks j = true then (s.channel j).cbEvents j else []) =
      (ids.filter fun j => picks j && (s.channel j).cbInstalled).map .cb := by
  induction ids with
  | nil => rfl
  | cons j rest ih =>
    rw [List.flatMap_cons, List.filter_cons, ih, Channel.cbEvents]
    cases picks j
    · rfl
    · cases (s.channel j).cbInstalled <;> rfl

/-- What ACK may emit is the handler's event, never a callback's (R121). -/
theorem cb_notMem_after_ack_events (s : State) (j : ChannelId) : Event.cb j ∉ (after .ack s).events := by
  rw [after_events]
  dsimp only
  split
  · split <;> simp
  · exact List.not_mem_nil

/-- Settles O30: a next state is `after`'s, whose events are the sweep of `after_events_of_ne_ack`, written as a filter by
`flatMap_cbEvents`; ACK's are `cb_notMem_after_ack_events`'. -/
theorem callbackEventsAreTheZeroCrossings : Obligations.CallbackEventsAreTheZeroCrossings := by
  intro i s t completes
  obtain ⟨rfl, -⟩ := exec_eq_next completes
  refine ⟨fun notAck => ?_, ?_⟩
  · exact (after_events_of_ne_ack notAck s).trans (flatMap_cbEvents (zeroCrosses i s) s channelIds)
  · rintro rfl
    exact cb_notMem_after_ack_events s

end Sys2Proof.Proofs
end

section
/-!
The pending latch (R145): what each write of a channel leaves in it, when an ACK selects a channel, and the table of every
instruction.
-/
namespace Sys2Proof.Proofs
open Sys2Proof.Machine

/-! ### The latch in each write of a channel -/

/-- Control bit 1 clears the latch, and bit 7 does not touch it (R76, R100). -/
@[simp] theorem writeControl_interruptPending (b : Byte) (c : Channel) :
    (c.writeControl b).interruptPending = (c.interruptPending && !b.getLsbD 1) := by
  rw [Channel.writeControl_eq]
  rfl

@[simp] theorem started_interruptPending (k : Byte) (c : Channel) : (c.started k).interruptPending = false := rfl

/-- A count-down latches the interrupt where it crosses zero (R110, R111). -/
@[simp] theorem counted_interruptPending (c : Channel) :
    c.counted.interruptPending =
      (c.interruptPending || (c.interruptEnabled && decide (c.currentCount ≤ 1))) := by
  unfold Channel.counted
  by_cases crosses : c.currentCount ≤ 1
  · simp [crosses, Channel.reloaded, Channel.latchedPending, Bool.or_comm]
  · simp [crosses]

/-- TICK latches the interrupt of a channel that crosses zero (R113). -/
@[simp] theorem ticked_interruptPending (c : Channel) :
    c.ticked.interruptPending = (c.interruptPending || (c.interruptEnabled && c.tickCrosses)) := by
  by_cases counts : c.mode = .timer ∧ c.isRunning = true
  · by_cases below : c.triggerCount + 1 < c.prescaler.divisor
    · simp [Channel.ticked, Channel.tickCrosses, counts, below]
    · simp [Channel.ticked, Channel.tickCrosses, Channel.countsTick, counts, below, Nat.not_lt.mp below]
  · have still : c.countsTick = false := by simpa [Channel.countsTick] using counts
    simp [Channel.ticked, Channel.tickCrosses, counts, still]

/-- TRIG latches the interrupt of its channel if that crosses zero (R115). -/
@[simp] theorem triggered_interruptPending (level : Bool) (c : Channel) :
    (c.triggered level).interruptPending =
      (c.interruptPending || (c.interruptEnabled && c.trigCrosses level)) := by
  by_cases counts : c.mode = .counter ∧ c.seesEdge level = true ∧ c.isRunning = true
  · simp [Channel.triggered, Channel.trigCrosses, counts]
  · have still : c.trigCrosses level = false := by
      rw [Bool.eq_false_iff, Ne, trigCrosses_iff]
      rintro ⟨counter, running, edge, -⟩
      exact counts ⟨counter, edge, running⟩
    simp [Channel.triggered, counts, still]

/-! ### The channel an ACK selects -/

/-- The selected channel is the one that requests with no lower-numbered one requesting (R121, R147). -/
theorem selected_eq_some_iff (s : State) (j : ChannelId) :
    s.selected = some j ↔
      (s.channel j).requests = true ∧ ∀ k : ChannelId, k < j → (s.channel k).requests = false := by
  obtain ⟨i, chosen, asks, quietBelow⟩ | ⟨unchosen, quiet⟩ := s.selected_cases
  · rw [chosen, Option.some.injEq]
    constructor
    · rintro rfl
      exact ⟨asks, quietBelow⟩
    · rintro ⟨asks', quietBelow'⟩
      -- two different channels cannot both be the lowest that requests
      obtain below | same | above := lt_trichotomy i j
      · exact absurd asks (Bool.eq_false_iff.mp (quietBelow' i below))
      · exact same
      · exact absurd asks' (Bool.eq_false_iff.mp (quietBelow j above))
  · simp [unchosen, quiet]

/-! ### Every instruction -/

/-- Settles O31: a next state is `after`'s, whose channel `after_channel` gives; each row of the table is then the lemma of
the write it makes, ACK's row with `selected_eq_some_iff`. -/
theorem pendingLatchTable : Obligations.PendingLatchTable := by
  intro i s t j completes
  obtain ⟨rfl, -⟩ := exec_eq_next completes
  rw [after_channel]
  cases i with
  | init freq => rfl
  | tick => exact ticked_interruptPending _
  | getvec idx => rfl
  | sethnd install => rfl
  | haspend => rfl
  | setcb idx install | setvec idx v =>
    dsimp only
    split <;> rfl
  | wctl idx b | wtc idx k | trig idx level =>
    -- a write of the channel it is addressed to, and no other
    by_cases here : idx.toNat = j.val <;> simp [here, zeroCrosses]
  | ack =>
    simp only [← selected_eq_some_iff]
    by_cases chosen : s.selected = some j <;> simp [chosen]

end Sys2Proof.Proofs
end

section
/-!
ACK's answer (R121, R168): what it leaves when no channel requests, and what it answers to the channel it selects.
-/
namespace Sys2Proof.Proofs
open Sys2Proof.Machine

theorem selected_eq_none_iff (s : State) :
    s.selected = none ↔ ∀ j : ChannelId, (s.channel j).requests = false := by
  obtain ⟨i, chosen, asks, -⟩ | ⟨unchosen, quiet⟩ := s.selected_cases
  · rw [chosen]
    exact ⟨nofun, fun quiet => absurd asks (Bool.eq_false_iff.mp (quiet i))⟩
  · exact iff_of_true unchosen quiet

/-- With no request ACK writes the two output ports and nothing else (R121). -/
theorem exec_ack_of_quiet {s : State} (initialised : s.ctl.initialised = true)
    (quiet : ∀ j : ChannelId, (s.channel j).requests = false) :
    exec .ack s = .next { s with response := .byte 0x00, events := [] } := by
  have unselected : after .ack s = s.openPorts.respond (.byte 0x00) := by
    rw [after, (selected_eq_none_iff s).mpr quiet]
  rw [exec_of_initialised initialised, unselected]
  rfl

/-- The byte of an acknowledged channel: the host's, with the handler installed, or the stored vector (R121). -/
theorem after_ack_response_of_selected {s : State} {i : ChannelId} (chosen : s.selected = some i) :
    (after .ack s).response =
      .byte (if s.ctl.handlerInstalled then s.hostAnswer else (s.channel i).interruptVector) := by
  simp only [after_response, chosen]

/-- Settles O40: with no request ACK's whole effect is `exec_ack_of_quiet`'s; else `selected_eq_some_iff` gives the
channel selected, whose byte is `after_ack_response_of_selected`'s. -/
theorem ackAnswersZeroInBothCases : Obligations.AckAnswersZeroInBothCases := by
  intro s initialised
  refine ⟨exec_ack_of_quiet initialised, fun i asks quietBelow zero => ?_⟩
  have chosen : s.selected = some i := (selected_eq_some_iff s i).mpr ⟨asks, quietBelow⟩
  refine ⟨after .ack s, exec_of_initialised initialised .ack, ?_⟩
  rw [after_ack_response_of_selected chosen, zero]

end Sys2Proof.Proofs
end

section
/-!
The decoder and the encoder (30_encoding.md R80 to R86): what the reserved-bit test answers, which op fields are assigned,
and the two directions of the round trip.
-/
namespace Sys2Proof.Proofs
open Sys2Proof.Machine

/-! ### The reserved-bit test -/

theorem unlessReserved_eq_instr {clear : Bool} {i j : Instr} :
    unlessReserved clear i = .instr j ↔ clear = true ∧ i = j := by
  cases clear <;> simp

theorem unlessReserved_eq_refused {clear : Bool} {i : Instr} {r : DecodeRefusal} :
    unlessReserved clear i = .refused r ↔ clear = false ∧ r = .reservedBits := by
  cases clear <;> simp [eq_comm]

/-! ### The op field -/

/-- The op values of no command (R85). -/
def Unassigned (op : BitVec 8) : Prop := op = 0x00 ∨ 0x0C ≤ op.toNat

/-- An op field is one of the eleven of R81, or unassigned (R85). -/
theorem op_cases (op : BitVec 8) :
    (op = 0x01 ∨ op = 0x02 ∨ op = 0x03 ∨ op = 0x04 ∨ op = 0x05 ∨ op = 0x06 ∨ op = 0x07 ∨ op = 0x08 ∨ op = 0x09
      ∨ op = 0x0A ∨ op = 0x0B) ∨ Unassigned op := by
  unfold Unassigned
  revert op
  decide

theorem decodeFields_of_unassigned {op : BitVec 8} (unassigned : Unassigned op) (idx : Byte) (data : BitVec 32) :
    decodeFields op idx data = .refused .unassignedOp := by
  unfold decodeFields
  split
  case h_12 => rfl
  all_goals exact absurd unassigned (by simp [Unassigned])

/-! ### The round trip -/

/-- Settles O11: the word is packed from its fields, which `decode_packWord` reads back; the reserved part of each operand
field is zero (`byteData_high`, `bitData_high`) and its low part the operand (`byteData_low`, `bitData_low`). -/
theorem decodeInvertsEncode : Obligations.DecodeInvertsEncode := by
  intro i
  cases i <;> rw [encode, decode_packWord] <;> simp [decodeFields]

/-- A data field with nothing above its byte is that byte operand's (R82, R84). -/
theorem byteData_dataByte {data : BitVec 32} (clear : (aboveByte data == 0) = true) :
    byteData (dataByte data) = data :=
  ((aboveByte_eq_zero_iff data).mp (eq_of_beq clear)).symm

/-- A data field with nothing above its bit is that bit operand's (R82, R84). -/
theorem bitData_dataBit {data : BitVec 32} (clear : (aboveBit data == 0) = true) :
    bitData (dataBit data) = data :=
  ((aboveBit_eq_zero_iff data).mp (eq_of_beq clear)).symm

/-- The encoder writes back the three fields that decode (R81, R82): each field of the word is an operand of the command,
or was tested to be zero. -/
theorem encode_of_decodeFields {op idx : BitVec 8} {data : BitVec 32} {i : Instr}
    (reads : decodeFields op idx data = .instr i) : encode i = packWord op idx data := by
  obtain (rfl | rfl | rfl | rfl | rfl | rfl | rfl | rfl | rfl | rfl | rfl) | unassigned := op_cases op
  case inr => simp [decodeFields_of_unassigned unassigned] at reads
  all_goals
    obtain ⟨clear, rfl⟩ := unlessReserved_eq_instr.mp reads
    rw [encode]
  · rw [eq_of_beq clear]
  · rw [byteData_dataByte clear]
  · rw [byteData_dataByte clear]
  · rw [bitData_dataBit clear]
  · rw [bitData_dataBit clear]
  · obtain ⟨noIdx, noData⟩ := Bool.and_eq_true_iff.mp clear
    rw [eq_of_beq noIdx, eq_of_beq noData]
  · rw [byteData_dataByte clear]
  · rw [eq_of_beq clear]
  · obtain ⟨noIdx, noData⟩ := Bool.and_eq_true_iff.mp clear
    rw [eq_of_beq noIdx, bitData_dataBit noData]
  · obtain ⟨noIdx, noData⟩ := Bool.and_eq_true_iff.mp clear
    rw [eq_of_beq noIdx, eq_of_beq noData]
  · obtain ⟨noIdx, noData⟩ := Bool.and_eq_true_iff.mp clear
    rw [eq_of_beq noIdx, eq_of_beq noData]

/-- Settles O12, by `encode_of_decodeFields` on the fields of the word. -/
theorem encodeInvertsDecode : Obligations.EncodeInvertsDecode := by
  intro w i reads
  exact (encode_of_decodeFields reads).trans (packWord_fields w)

/-- Settles O10: each of the thirteen closed words is run through the decoder. -/
theorem sampleWordsDecode : Obligations.SampleWordsDecode := by
  unfold Obligations.SampleWordsDecode
  decide

end Sys2Proof.Proofs
end

section
/-!
What the decoder refuses and why (30_encoding.md R84, R85), by the three fields of the word.
-/
namespace Sys2Proof.Proofs
open Sys2Proof.Machine

/-- The reserved part of a byte operand's data field is set when the field is 256 or more (R82). -/
theorem aboveByte_ne_zero_iff (data : BitVec 32) : ¬ aboveByte data = 0#24 ↔ 256 ≤ data.toNat := by
  rw [BitVec.toNat_eq, aboveByte_toNat, BitVec.toNat_ofNat]
  omega

/-- The reserved part of a bit operand's data field is set when the field is 2 or more (R82). -/
theorem aboveBit_ne_zero_iff (data : BitVec 32) : ¬ aboveBit data = 0#31 ↔ 2 ≤ data.toNat := by
  rw [BitVec.toNat_eq, aboveBit_toNat, BitVec.toNat_ofNat]
  omega

/-- The reserved-bit test is the only refusal of an assigned op, so the decoder never finds it unassigned (R85). -/
theorem unlessReserved_ne_unassignedOp (clear : Bool) (i : Instr) :
    unlessReserved clear i ≠ .refused .unassignedOp := by
  simp [unlessReserved_eq_refused]

/-- A list of assigned ops holds no unassigned one. -/
theorem notMem_of_unassigned {op : BitVec 8} (unassigned : Unassigned op) {ops : List (BitVec 8)}
    (assigned : ∀ o ∈ ops, ¬ (o = 0x00 ∨ 0x0C ≤ o.toNat)) : op ∉ ops :=
  fun listed => assigned op listed unassigned

theorem decodeFields_eq_unassignedOp_iff (op idx : BitVec 8) (data : BitVec 32) :
    decodeFields op idx data = .refused .unassignedOp ↔ op = 0x00 ∨ 0x0C ≤ op.toNat := by
  obtain (rfl | rfl | rfl | rfl | rfl | rfl | rfl | rfl | rfl | rfl | rfl) | unassigned := op_cases op
  case inr => exact iff_of_true (decodeFields_of_unassigned unassigned idx data) unassigned
  all_goals exact iff_of_false (unlessReserved_ne_unassignedOp _ _) (by decide)

/-- Which reserved bits each op tests (R84). -/
theorem decodeFields_eq_reservedBits_iff (op idx : BitVec 8) (data : BitVec 32) :
    decodeFields op idx data = .refused .reservedBits ↔
      (op ∈ [0x01#8, 0x06#8, 0x09#8, 0x0A#8, 0x0B#8] ∧ idx ≠ 0)
        ∨ (op ∈ [0x02#8, 0x03#8, 0x07#8] ∧ 2 ^ 8 ≤ data.toNat)
        ∨ (op ∈ [0x04#8, 0x05#8, 0x09#8] ∧ 2 ≤ data.toNat)
        ∨ (op ∈ [0x06#8, 0x08#8, 0x0A#8, 0x0B#8] ∧ data ≠ 0) := by
  obtain (rfl | rfl | rfl | rfl | rfl | rfl | rfl | rfl | rfl | rfl | rfl) | unassigned := op_cases op
  case inr =>
    refine iff_of_false (by simp [decodeFields_of_unassigned unassigned]) fun named => ?_
    obtain ⟨listed, -⟩ | ⟨listed, -⟩ | ⟨listed, -⟩ | ⟨listed, -⟩ := named
    all_goals exact notMem_of_unassigned unassigned (by decide) listed
  all_goals
    refine (unlessReserved_eq_refused.trans (and_iff_left rfl)).trans ?_
    simp [aboveByte_ne_zero_iff, aboveBit_ne_zero_iff, imp_iff_not_or]

/-- Settles O14: the word is packed from the three fields, of which `decodeFields_eq_unassignedOp_iff` and
`decodeFields_eq_reservedBits_iff` speak. -/
theorem decoderRefusesExactlyAsNamed : Obligations.DecoderRefusesExactlyAsNamed := by
  intro op idx data
  have fields : decode (op ++ idx ++ data) = decodeFields op idx data := decode_packWord op idx data
  rw [fields]
  exact ⟨decodeFields_eq_unassignedOp_iff op idx data, decodeFields_eq_reservedBits_iff op idx data⟩

end Sys2Proof.Proofs
end

section
/-!
The decoder against spec/opcode_table.json (30_encoding.md R86): a row's mask read field by field, the rows that accept a
word as those of the instruction it decodes to, and the two checks of `wordWellFormed`.
-/
namespace Sys2Proof.Proofs
open Sys2Proof.Machine

/-! ### A row's mask by fields -/

theorem packWord_inj {op idx op' idx' : BitVec 8} {data data' : BitVec 32} :
    packWord op idx data = packWord op' idx' data' ↔ op = op' ∧ idx = idx' ∧ data = data' := by
  constructor
  · intro same
    exact ⟨by simpa using congrArg opField same, by simpa using congrArg idxField same,
      by simpa using congrArg dataField same⟩
  · rintro ⟨rfl, rfl, rfl⟩
    rfl

/-- A row accepts a word when its mask passes its pattern in each of the three fields (R80, R86). -/
theorem accepts_iff (r : OpcodeRow) (w : CommandWord) :
    r.accepts w = true ↔
      opField w &&& opField r.mask = opField r.pattern
        ∧ idxField w &&& idxField r.mask = idxField r.pattern
        ∧ dataField w &&& dataField r.mask = dataField r.pattern := by
  rw [OpcodeRow.accepts, beq_iff_eq, ← packWord_inj, packWord_fields, ← Laws.packWord_and, packWord_fields,
    packWord_fields]

/-- The masks of the table: every row's covers the whole op field. -/
theorem opField_mask_of_row : ∀ r ∈ opcodeTable, opField r.mask = 0xFF := by decide

/-- A field that its whole mask leaves zero. -/
theorem and_allOnes_eq_zero {n : Nat} {x : BitVec n} (masked : x &&& BitVec.allOnes n = 0) : x = 0 :=
  BitVec.and_allOnes.symm.trans masked

theorem both_clear {idx : BitVec 8} {data : BitVec 32} (onIdx : idx &&& 0xFF = 0) (onData : data &&& 0xFFFFFFFF = 0) :
    (idx == 0 && data == 0) = true :=
  Bool.and_eq_true_iff.mpr ⟨beq_of_eq (and_allOnes_eq_zero onIdx), beq_of_eq (and_allOnes_eq_zero onData)⟩

theorem opField_of_accepts {r : OpcodeRow} (row : r ∈ opcodeTable) {w : CommandWord} (accepted : r.accepts w = true) :
    opField w = opField r.pattern := by
  obtain ⟨onOp, -, -⟩ := (accepts_iff r w).mp accepted
  rw [opField_mask_of_row r row] at onOp
  exact BitVec.and_allOnes.symm.trans onOp

/-- Masked away above its byte, a data field has no reserved bit of a byte operand set (R82). -/
theorem aboveByte_of_masked {data : BitVec 32} (masked : data &&& 0xFFFFFF00 = 0) : aboveByte data = 0 :=
  calc aboveByte data
    _ = aboveByte data &&& aboveByte 0xFFFFFF00 := BitVec.and_allOnes.symm
    _ = aboveByte (data &&& 0xFFFFFF00) := BitVec.extractLsb'_and.symm
    _ = 0 := by rw [masked]; rfl

/-- Masked away above its bit, a data field has no reserved bit of a bit operand set (R82). -/
theorem aboveBit_of_masked {data : BitVec 32} (masked : data &&& 0xFFFFFFFE = 0) : aboveBit data = 0 :=
  calc aboveBit data
    _ = aboveBit data &&& aboveBit 0xFFFFFFFE := BitVec.and_allOnes.symm
    _ = aboveBit (data &&& 0xFFFFFFFE) := BitVec.extractLsb'_and.symm
    _ = 0 := by rw [masked]; rfl

/-! ### The rows that accept a word -/

/-- A word whose op has an arm in the decoder, and whose reserved bits that arm finds clear. -/
theorem decode_of_clear {w : CommandWord} {op : BitVec 8} {clear : Bool} {i : Instr} (onOp : opField w = op)
    (arm : decodeFields op (idxField w) (dataField w) = unlessReserved clear i) (isClear : clear = true) :
    decode w = .instr i := by
  rw [decode, onOp, arm, isClear, unlessReserved_true]

/-- A row's words decode to its own command: the op is the row's, and what the row masks to zero is what the decoder tests
to be zero. -/
theorem decode_of_accepts {r : OpcodeRow} (row : r ∈ opcodeTable) {w : CommandWord} (accepted : r.accepts w = true) :
    ∃ i, decode w = .instr i ∧ i.mnemonic = r.mnemonic := by
  have onOp := opField_of_accepts row accepted
  obtain ⟨-, onIdx, onData⟩ := (accepts_iff r w).mp accepted
  simp only [opcodeTable, List.mem_cons, List.not_mem_nil, or_false] at row
  obtain rfl | rfl | rfl | rfl | rfl | rfl | rfl | rfl | rfl | rfl | rfl := row
  · exact ⟨_, decode_of_clear onOp rfl (beq_of_eq (and_allOnes_eq_zero onIdx)), rfl⟩
  · exact ⟨_, decode_of_clear onOp rfl (beq_of_eq (aboveByte_of_masked onData)), rfl⟩
  · exact ⟨_, decode_of_clear onOp rfl (beq_of_eq (aboveByte_of_masked onData)), rfl⟩
  · exact ⟨_, decode_of_clear onOp rfl (beq_of_eq (aboveBit_of_masked onData)), rfl⟩
  · exact ⟨_, decode_of_clear onOp rfl (beq_of_eq (aboveBit_of_masked onData)), rfl⟩
  · exact ⟨_, decode_of_clear onOp rfl (both_clear onIdx onData), rfl⟩
  · exact ⟨_, decode_of_clear onOp rfl (beq_of_eq (aboveByte_of_masked onData)), rfl⟩
  · exact ⟨_, decode_of_clear onOp rfl (beq_of_eq (and_allOnes_eq_zero onData)), rfl⟩
  · refine ⟨_, decode_of_clear onOp rfl ?_, rfl⟩
    exact Bool.and_eq_true_iff.mpr
      ⟨beq_of_eq (and_allOnes_eq_zero onIdx), beq_of_eq (aboveBit_of_masked onData)⟩
  · exact ⟨_, decode_of_clear onOp rfl (both_clear onIdx onData), rfl⟩
  · exact ⟨_, decode_of_clear onOp rfl (both_clear onIdx onData), rfl⟩

/-- No two rows of the table bear one mnemonic, nor one op. -/
theorem row_unique : ∀ r ∈ opcodeTable, ∀ r' ∈ opcodeTable,
    (r.mnemonic = r'.mnemonic ∨ opField r.pattern = opField r'.pattern) → r = r' := by decide

/-- The encoder's word is one of the row of the instruction's mnemonic (R86). -/
theorem wordOfItsRow (i : Instr) : Laws.WordOfItsRow.Statement i := by
  cases i with
  | init freq => exact Laws.WordOfItsRow.init freq
  | wctl idx b => exact Laws.WordOfItsRow.wctl idx b
  | wtc idx k => exact Laws.WordOfItsRow.wtc idx k
  | setcb idx install => exact Laws.WordOfItsRow.setcb idx install
  | trig idx level => exact Laws.WordOfItsRow.trig idx level
  | tick => exact Laws.WordOfItsRow.tick
  | setvec idx v => exact Laws.WordOfItsRow.setvec idx v
  | getvec idx => exact Laws.WordOfItsRow.getvec idx
  | sethnd install => exact Laws.WordOfItsRow.sethnd install
  | haspend => exact Laws.WordOfItsRow.haspend
  | ack => exact Laws.WordOfItsRow.ack

/-- A row accepts exactly the words of the instructions that bear its mnemonic (R86). -/
theorem accepts_iff_decode {r : OpcodeRow} (row : r ∈ opcodeTable) (w : CommandWord) :
    r.accepts w = true ↔ ∃ i, decode w = .instr i ∧ i.mnemonic = r.mnemonic := by
  refine ⟨decode_of_accepts row, ?_⟩
  rintro ⟨i, reads, named⟩
  obtain ⟨r', row', named', accepted⟩ := wordOfItsRow i
  rw [encodeInvertsDecode w i reads] at accepted
  rwa [row_unique r row r' row' (.inl (named.symm.trans named'.symm))]

/-- The rows that accept the word of an instruction are those of its mnemonic. -/
theorem accepting_rows {w : CommandWord} {i : Instr} (reads : decode w = .instr i) :
    opcodeTable.filter (·.accepts w) = opcodeTable.filter (·.mnemonic == i.mnemonic) := by
  refine List.filter_congr fun r row => ?_
  rw [Bool.eq_iff_iff, accepts_iff_decode row, reads, beq_iff_eq]
  simp [eq_comm]

theorem mnemonic_has_one_row (i : Instr) :
    (opcodeTable.filter (·.mnemonic == i.mnemonic)).map (·.mnemonic) = [i.mnemonic] := by
  cases i <;> rfl

theorem accepting_rows_of_refused {w : CommandWord} {r : DecodeRefusal} (refused : decode w = .refused r) :
    opcodeTable.filter (·.accepts w) = [] := by
  refine List.filter_eq_nil_iff.mpr fun row isRow accepted => ?_
  obtain ⟨i, reads, -⟩ := decode_of_accepts isRow accepted
  exact nomatch refused.symm.trans reads

/-! ### The two checks of a word -/

theorem hasOpOf_iff (r : OpcodeRow) (w : CommandWord) : r.hasOpOf w = true ↔ opField w = opField r.pattern := by
  have shifted : (w ^^^ r.pattern) >>> 40 = 0#48 ↔ opField (w ^^^ r.pattern) = 0#8 := by
    simp only [opField, BitVec.toNat_eq, BitVec.toNat_ushiftRight, BitVec.extractLsb'_toNat]
    have := (w ^^^ r.pattern).isLt
    simp only [Nat.shiftRight_eq_div_pow, BitVec.toNat_ofNat]
    omega
  have fieldwise : opField (w ^^^ r.pattern) = opField w ^^^ opField r.pattern := BitVec.extractLsb'_xor
  rw [OpcodeRow.hasOpOf, beq_iff_eq]
  exact shifted.trans (fieldwise ▸ BitVec.xor_eq_zero_iff)

/-- A word passes both checks when some row accepts it: rows differ in op, so the second check falls to that row
(R84, R85). -/
theorem wordWellFormed_iff (w : CommandWord) :
    wordWellFormed w = true ↔ ∃ r ∈ opcodeTable, r.accepts w = true := by
  rw [wordWellFormed, Bool.and_eq_true_iff, opAssigned, reservedClear, List.any_eq_true, List.all_eq_true]
  constructor
  · rintro ⟨⟨r, row, sameOp⟩, clear⟩
    refine ⟨r, row, ?_⟩
    simpa [sameOp] using clear r row
  · rintro ⟨r, row, accepted⟩
    have onOp := opField_of_accepts row accepted
    refine ⟨⟨r, row, (hasOpOf_iff r w).mpr onOp⟩, fun r' row' => ?_⟩
    cases sameOp : r'.hasOpOf w with
    | false => rfl
    | true =>
      rw [row_unique r' row' r row (.inr (((hasOpOf_iff r' w).mp sameOp).symm.trans onOp)), accepted]
      rfl

/-- Settles O13: `accepting_rows` and `mnemonic_has_one_row` for a word that decodes, `accepting_rows_of_refused` for a
refused one, and `wordWellFormed_iff` with `accepts_iff_decode` for the two checks. -/
theorem decodeAgreesWithOpcodeTable : Obligations.DecodeAgreesWithOpcodeTable := by
  intro w
  refine ⟨fun i reads => ?_, fun r refused => accepting_rows_of_refused refused, ?_⟩
  · rw [accepting_rows reads, mnemonic_has_one_row]
  · rw [wordWellFormed_iff]
    constructor
    · rintro ⟨r, row, accepted⟩
      obtain ⟨i, reads, -⟩ := decode_of_accepts row accepted
      exact ⟨i, reads⟩
    · rintro ⟨i, reads⟩
      obtain ⟨r, row, named, accepted⟩ := wordOfItsRow i
      exact ⟨r, row, encodeInvertsDecode w i reads ▸ accepted⟩

end Sys2Proof.Proofs
end

section
/-!
Counting (41_counting.md R111, R113): the count-down by cases, TICK by cases, and which fields of a channel each count
can write.
-/
namespace Sys2Proof.Proofs
open Sys2Proof.Machine

/-! ### The count-down -/

theorem counted_of_le_one {c : Channel} (last : c.currentCount ≤ 1) : c.counted = c.reloaded := by
  rw [Channel.counted, if_pos last]

theorem counted_of_one_lt {c : Channel} (above : 1 < c.currentCount) :
    c.counted = { c with currentCount := c.currentCount - 1 } := by
  rw [Channel.counted, if_neg (Nat.not_le.mpr above)]

theorem counted_currentCount (c : Channel) :
    c.counted.currentCount = if c.currentCount ≤ 1 then reload c.timeConstant else c.currentCount - 1 := by
  unfold Channel.counted
  split <;> rfl

/-- A count-down never leaves a count of 0: it reloads instead (R110, R111). -/
theorem one_le_counted_currentCount (c : Channel) : 1 ≤ c.counted.currentCount := by
  rw [counted_currentCount]
  split
  · exact reload_pos _
  · omega

theorem counted_currentCount_le {c : Channel} (inRange : c.currentCount ≤ 256) : c.counted.currentCount ≤ 256 := by
  rw [counted_currentCount]
  split
  · exact reload_le _
  · omega

@[simp] theorem counted_triggerCount (c : Channel) : c.counted.triggerCount = c.triggerCount := by
  unfold Channel.counted
  split <;> rfl

theorem countDown_of_one_lt {s : State} {i : ChannelId} (above : 1 < (s.channel i).currentCount) :
    s.countDown i = s.setChannel i { s.channel i with currentCount := (s.channel i).currentCount - 1 } := by
  rw [State.countDown_eq, counted_of_one_lt above, if_neg (Nat.not_le.mpr above), List.append_nil]
  rfl

/-- At 1 or 0 the count-down is the zero-crossing of the channel at 0 (R111). -/
theorem countDown_of_le_one {s : State} {i : ChannelId} (last : (s.channel i).currentCount ≤ 1) :
    s.countDown i = (s.setChannel i { s.channel i with currentCount := 0 }).zeroCrossing i := by
  rw [State.countDown_eq, State.zeroCrossing_eq, counted_of_le_one last, if_pos last]
  apply State.ext_channel
  · intro j
    exact (State.setChannel_channel s i j _).trans (by
      refine Eq.trans ?_ (State.setChannel_channel _ i j _).symm
      split <;> simp [*, Channel.reloaded, Channel.latchedPending])
  all_goals simp [Channel.cbEvents]

/-- Settles O26: the two cases are `countDown_of_one_lt` and `countDown_of_le_one`, and the count left is `counted`'s. -/
theorem countDownFloorsAndNeverLeavesZero : Obligations.CountDownFloorsAndNeverLeavesZero := by
  intro s i
  have leaves : (s.countDown i).channel i = (s.channel i).counted := by
    rw [State.countDown_eq]
    exact (State.setChannel_channel s i i _).trans (if_pos rfl)
  exact ⟨countDown_of_one_lt, countDown_of_le_one, leaves ▸ one_le_counted_currentCount _⟩

/-! ### TICK by cases -/

/-- Short of the divisor a TICK only advances the accumulator (R113). -/
theorem ticked_of_lt {c : Channel} (timer : c.mode = .timer) (running : c.isRunning = true)
    (short : c.triggerCount + 1 < c.prescaler.divisor) : c.ticked = { c with triggerCount := c.triggerCount + 1 } := by
  rw [Channel.ticked, if_pos ⟨timer, running⟩, if_pos short]

/-- At the divisor a TICK clears the accumulator and counts down (R113). -/
theorem ticked_of_le {c : Channel} (timer : c.mode = .timer) (running : c.isRunning = true)
    (full : c.prescaler.divisor ≤ c.triggerCount + 1) : c.ticked = Channel.counted { c with triggerCount := 0 } := by
  rw [Channel.ticked, if_pos ⟨timer, running⟩, if_neg (Nat.not_lt.mpr full)]

theorem ticked_of_not_counting {c : Channel} (still : ¬ (c.mode = .timer ∧ c.isRunning = true)) : c.ticked = c := by
  rw [Channel.ticked, if_neg still]

/-- The three ways a TICK can act on a channel (R113). -/
theorem ticked_cases (c : Channel) :
    (¬ (c.mode = .timer ∧ c.isRunning = true) ∧ c.ticked = c)
      ∨ (c.mode = .timer ∧ c.isRunning = true ∧ c.triggerCount + 1 < c.prescaler.divisor
          ∧ c.ticked = { c with triggerCount := c.triggerCount + 1 })
      ∨ (c.mode = .timer ∧ c.isRunning = true ∧ c.prescaler.divisor ≤ c.triggerCount + 1
          ∧ c.ticked = Channel.counted { c with triggerCount := 0 }) := by
  by_cases counts : c.mode = .timer ∧ c.isRunning = true
  · obtain ⟨timer, running⟩ := counts
    obtain short | full := Nat.lt_or_ge (c.triggerCount + 1) c.prescaler.divisor
    · exact .inr (.inl ⟨timer, running, short, ticked_of_lt timer running short⟩)
    · exact .inr (.inr ⟨timer, running, full, ticked_of_le timer running full⟩)
  · exact .inl ⟨counts, ticked_of_not_counting counts⟩

/-- The divisors of R11 by the prescaler setting. -/
theorem divisor_eq_ite (p : Prescaler) : p.divisor = if p = .div256 then 256 else 16 := by
  cases p <;> rfl

@[simp] theorem after_tick_channel (s : State) (j : ChannelId) :
    (after .tick s).channel j = (s.channel j).ticked :=
  after_channel _ s j

/-- Settles O28: the state is `after`'s, whose channels are ticked by the cases of R113, at the divisors of R11. -/
theorem tickCountsRunningTimerChannels : Obligations.TickCountsRunningTimerChannels := by
  intro s initialised
  refine ⟨after .tick s, exec_of_initialised initialised _, fun j => ?_, after_ctl _ s, after_sameHost _ s,
    after_response _ s⟩
  rw [after_tick_channel, ← divisor_eq_ite]
  obtain ⟨still, ticks⟩ | ⟨timer, running, short, ticks⟩ | ⟨timer, running, full, ticks⟩ := ticked_cases (s.channel j)
  · rw [if_neg still]
    exact ticks
  · rw [if_pos ⟨timer, running⟩, if_pos short]
    exact ticks
  · rw [if_pos ⟨timer, running⟩, if_neg (Nat.not_lt.mpr full)]
    refine ticks.trans ?_
    obtain above | last := Nat.lt_or_ge 1 (s.channel j).currentCount
    · rw [if_pos above]
      exact counted_of_one_lt above
    · rw [if_neg (Nat.not_lt.mpr last)]
      exact counted_of_le_one last

/-! ### What a count can write in a channel -/

theorem counted_frame (c : Channel) :
    c.counted =
      { c with currentCount := c.counted.currentCount, interruptPending := c.counted.interruptPending } := by
  unfold Channel.counted
  split <;> rfl

/-- TICK writes the accumulator, the count and the latch of a channel, nothing else (R113). -/
theorem ticked_frame (c : Channel) :
    c.ticked =
      { c with
        triggerCount := c.ticked.triggerCount
        currentCount := c.ticked.currentCount
        interruptPending := c.ticked.interruptPending } := by
  obtain ⟨-, ticks⟩ | ⟨-, -, -, ticks⟩ | ⟨-, -, -, ticks⟩ := ticked_cases c
  · rw [ticks]
  · rw [ticks]
  · rw [ticks, counted_frame]

/-- TRIG writes the count, the latch and the edge memory of a channel, nothing else (R115). -/
theorem triggered_frame (level : Bool) (c : Channel) :
    c.triggered level =
      { c with
        currentCount := (c.triggered level).currentCount
        interruptPending := (c.triggered level).interruptPending
        lastTriggerState := level } := by
  rw [triggered_eq]
  split
  · split <;> rfl
  · rfl

end Sys2Proof.Proofs
end

section
/-!
Which commands complete (60_exceptions.md R140 to R142; 70_reset_and_hazards.md R161), and what a run that begins with
INIT can do.
-/
namespace Sys2Proof.Proofs
open Sys2Proof.Machine

/-! ### INIT -/

theorem exec_init (freq : Frequency) (s : State) : exec (.init freq) s = .next (after (.init freq) s) := rfl

/-- Settles O1: INIT's state is `after`'s, whose laws give every channel, the Controller, the host's side and the ports. -/
theorem initResetsTheWholeBlock : Obligations.InitResetsTheWholeBlock := by
  intro freq s
  exact ⟨_, exec_init freq s, after_channel _ s, after_ctl _ s, after_sameHost _ s, after_response _ s, after_events _ s⟩

/-- Settles O2: INIT writes `Channels.reset` and `Controller.reset`, of which `State.reset` is made. -/
theorem resetStateIsTheStateAfterInit : Obligations.ResetStateIsTheStateAfterInit := by
  intro freq s
  exact ⟨_, exec_init freq s, rfl, after_ctl _ s, after_response _ s, after_events _ s⟩

/-- Settles O3, by `exec_before_init` for the refusals and `exec_init` for INIT. -/
theorem beforeInitOnlyInitRuns : Obligations.BeforeInitOnlyInitRuns := by
  intro s uninitialised
  exact ⟨fun i notInit => exec_before_init uninitialised notInit, fun freq => ⟨_, exec_init freq s, rfl⟩⟩

/-! ### An initialised block -/

/-- No instruction clears the initialised bit (R37). -/
theorem after_initialised {s : State} (initialised : s.ctl.initialised = true) (i : Instr) :
    (after i s).ctl.initialised = true := by
  rw [after_ctl]
  cases i with
  | init freq => rfl
  | _ => exact initialised

/-- Settles O4, by `exec_of_initialised` and `after_initialised`. -/
theorem initialisedBlockTakesEveryCommand : Obligations.InitialisedBlockTakesEveryCommand := by
  intro i s initialised
  exact ⟨after i s, exec_of_initialised initialised i, after_initialised initialised i⟩

theorem execAll_cons_of_initialised {s : State} (initialised : s.ctl.initialised = true) (i : Instr)
    (rest : List Instr) : execAll (i :: rest) s = execAll rest (after i s) := by
  rw [execAll, exec_of_initialised initialised]

/-- The state a list of instructions leaves, each completing. -/
def afterAll (is : List Instr) (s : State) : State := is.foldl (fun s i => after i s) s

/-- An initialised block runs every list of commands to its end (R140, R161). -/
theorem execAll_of_initialised {s : State} (initialised : s.ctl.initialised = true) (is : List Instr) :
    execAll is s = .next (afterAll is s) := by
  induction is generalizing s with
  | nil => rfl
  | cons i rest ih =>
    rw [execAll_cons_of_initialised initialised, ih (after_initialised initialised i)]
    rfl

theorem afterAll_initialised {s : State} (initialised : s.ctl.initialised = true) (is : List Instr) :
    (afterAll is s).ctl.initialised = true := by
  induction is generalizing s with
  | nil => exact initialised
  | cons i rest ih => exact ih (after_initialised initialised i)

/-- Settles O6: INIT leaves an initialised block, which runs the rest by `execAll_of_initialised`. -/
theorem everyRunFromInitIsSafe : Obligations.EveryRunFromInitIsSafe := by
  intro freq cmds s
  have runs : execAll (.init freq :: cmds) s = .next (afterAll cmds (after (.init freq) s)) := by
    rw [execAll, exec_init]
    exact execAll_of_initialised rfl cmds
  rw [runIsSafe, runs]

end Sys2Proof.Proofs
end

section
/-!
The step (00_scope.md R16; 20_memory.md R60; 60_exceptions.md R141, R142): what stops it, what a completed step leaves of
the host's side, and runs of a command list.
-/
namespace Sys2Proof.Proofs
open Sys2Proof.Machine

/-! ### The step by what is fetched -/

theorem step_of_instr {s : State} {c : Issue} {i : Instr} (fetched : s.fetch? = some c)
    (reads : decode c.word = .instr i) : step s = advanceOutcome (exec i (s.present c.answer)) := by
  simp only [step, fetched, reads]

/-- Settles O7, by `step_of_instr`. -/
theorem stepRunsTheDecodedInstruction : Obligations.StepRunsTheDecodedInstruction := by
  intro s c i fetched reads
  refine (step_of_instr fetched reads).trans ?_
  change advanceOutcome (exec i { s with hostAnswer := c.answer }) = _
  cases exec i { s with hostAnswer := c.answer } <;> rfl

/-! ### What stops a step -/

/-- All that a step can answer: one stop for want of a command, the decoder's two refusals, the refusal before INIT, or
the state the instruction leaves with the index advanced (R60, R141, R142). -/
theorem step_answers (s : State) :
    (s.fetch? = none ∧ step s = .fault .noCommand)
      ∨ (∃ c r, s.fetch? = some c ∧ decode c.word = .refused r ∧ step s = .refused (refusalOf r))
      ∨ (∃ c i, s.fetch? = some c ∧ decode c.word = .instr i ∧ s.ctl.initialised = false ∧ (∀ freq, i ≠ .init freq)
          ∧ step s = .refused .beforeInit)
      ∨ (∃ c i, s.fetch? = some c ∧ decode c.word = .instr i
          ∧ (s.ctl.initialised = true ∨ ∃ freq, i = .init freq)
          ∧ step s = .next (after i (s.present c.answer)).advance) := by
  obtain nothing | decoderRefuses | ⟨c, i, fetched, reads, runs⟩ := step_cases s
  · exact .inl nothing
  · exact .inr (.inl decoderRefuses)
  · obtain ⟨completes, allowed⟩ | ⟨refuses, uninitialised, notInit⟩ := exec_cases i (s.present c.answer)
    · rw [completes] at runs
      exact .inr (.inr (.inr ⟨c, i, fetched, reads, allowed, runs⟩))
    · rw [refuses] at runs
      exact .inr (.inr (.inl ⟨c, i, fetched, reads, uninitialised, notInit, runs⟩))

/-- What a completed step has done. -/
theorem step_eq_next {s t : State} (completes : step s = .next t) :
    ∃ c i, s.fetch? = some c ∧ t = (after i (s.present c.answer)).advance := by
  obtain ⟨-, stops⟩ | ⟨c, r, -, -, stops⟩ | ⟨c, i, -, -, -, -, stops⟩ | ⟨c, i, fetched, -, -, steps⟩ :=
    step_answers s
  · exact nomatch stops.symm.trans completes
  · exact nomatch stops.symm.trans completes
  · exact nomatch stops.symm.trans completes
  · cases steps.symm.trans completes
    exact ⟨c, i, fetched, rfl⟩

/-- Settles O5: in each of the four cases of `step_answers` the step's one answer is compared with each reason named. -/
theorem stepStopsOnlyForNamedReasons : Obligations.StepStopsOnlyForNamedReasons := by
  intro s
  have host : s.program[s.index]? = s.fetch? := rfl
  rw [host]
  obtain ⟨nothing, stops⟩ | ⟨c, r, fetched, refused, stops⟩ | ⟨c, i, fetched, reads, uninitialised, notInit, stops⟩
    | ⟨c, i, fetched, reads, allowed, steps⟩ := step_answers s
  · simp [nothing, stops]
  · cases r <;> simp [fetched, refused, stops, refusalOf]
  · simp [fetched, reads, uninitialised, notInit, stops]
  · have notBefore : ¬ (s.ctl.initialised = false ∧ ∀ freq, i ≠ .init freq) := by
      rintro ⟨uninitialised, notInit⟩
      obtain initialised | ⟨freq, isInit⟩ := allowed
      · exact Bool.false_ne_true (uninitialised.symm.trans initialised)
      · exact notInit freq isInit
    simpa [fetched, reads, steps] using notBefore

/-- Settles O8: what the step ran leaves the host's side (`after_sameHost`), and the index then advances. -/
theorem stepAdvancesTheIndexByOne : Obligations.StepAdvancesTheIndexByOne := by
  intro s t completes
  obtain ⟨c, i, -, rfl⟩ := step_eq_next completes
  obtain ⟨program, index, -⟩ := after_sameHost i (s.present c.answer)
  exact ⟨congrArg (· + 1) index, program⟩

/-! ### A run of a command list -/

/-- A list of instructions as the host issues it: their words, each with its answer (R60). -/
def issued (cmds : List (Instr × Byte)) : List Issue := cmds.map fun c => ⟨encode c.1, c.2⟩

/-- A step on an issued instruction is that instruction's step in the run of instructions. -/
theorem step_of_issued {s : State} {i : Instr} {answer : Byte} (fetched : s.fetch? = some ⟨encode i, answer⟩) :
    step s = advanceOutcome (exec i (s.present answer)) :=
  step_of_instr fetched (decodeInvertsEncode i)

theorem run_succ_of_next {s t : State} (completes : step s = .next t) (k : Nat) :
    Sys2Proof.core.run (k + 1) s = Sys2Proof.core.run k t := by
  simp [Host.Core.run, Sys2Proof.core, completes]

theorem run_succ_of_refused {s : State} {r : Refusal} (stops : step s = .refused r) (k : Nat) :
    Sys2Proof.core.run (k + 1) s = .refused r := by
  simp [Host.Core.run, Sys2Proof.core, stops]

theorem execIssued_cons_of_next {i : Instr} {answer : Byte} {s t : State}
    (completes : exec i (s.present answer) = .next t) (rest : List (Instr × Byte)) :
    execIssued ((i, answer) :: rest) s = execIssued rest t.advance := by
  have presented : exec i { s with hostAnswer := answer } = .next t := completes
  rw [execIssued, presented]
  rfl

theorem execIssued_cons_of_refused {i : Instr} {answer : Byte} {s : State} {r : Refusal}
    (stops : exec i (s.present answer) = .refused r) (rest : List (Instr × Byte)) :
    execIssued ((i, answer) :: rest) s = .refused r := by
  have presented : exec i { s with hostAnswer := answer } = .refused r := stops
  rw [execIssued, presented]

/-- The run of the machine and the run of the instructions go on together: the command list stays and the index moves past
one issued word at a time, so the rest of the list stays in view. -/
theorem run_of_issued (cmds : List (Instr × Byte)) (before later : List Issue) (s : State)
    (listed : s.program = before ++ issued cmds ++ later) (here : s.index = before.length) :
    Sys2Proof.core.run cmds.length s = execIssued cmds s := by
  induction cmds generalizing before s with
  | nil => rfl
  | cons c rest ih =>
    obtain ⟨i, answer⟩ := c
    have steps : step s = advanceOutcome (exec i (s.present answer)) :=
      step_of_issued (by simp [State.fetch?, listed, here, issued])
    obtain ⟨completes, -⟩ | ⟨refuses, -, -⟩ := exec_cases i (s.present answer)
    · obtain ⟨program, index, -⟩ := after_sameHost i (s.present answer)
      rw [completes] at steps
      rw [List.length_cons, run_succ_of_next steps, execIssued_cons_of_next completes]
      refine ih (before ++ [⟨encode i, answer⟩]) _ ?_ ?_
      · exact program.trans (listed.trans (by simp [issued]))
      · exact (congrArg (· + 1) (index.trans here)).trans (by simp)
    · rw [refuses] at steps
      rw [List.length_cons, run_succ_of_refused steps, execIssued_cons_of_refused refuses]
      rfl

/-- Settles O9, by `run_of_issued`: each step fetches the word `encode` wrote, which decodes to its instruction (O11). -/
theorem runOfCommandListRunsItsInstructions : Obligations.RunOfCommandListRunsItsInstructions :=
  run_of_issued

end Sys2Proof.Proofs
end

section
/-!
The machine's invariant (10_state.md R39 to R41; 20_memory.md R60): each write of a channel keeps the channel's derived
facts, and a completed step keeps the index within the command list or at its end.
-/
namespace Sys2Proof.Proofs
open Sys2Proof.Machine

/-! ### Each write of a channel -/

theorem reset_sound : Channel.reset.Sound := by decide

/-- A control write sets the decoded fields from the byte it stores; a count it zeroes is of a channel it stops (R76). -/
theorem writeControl_sound {c : Channel} (sound : c.Sound) (b : Byte) : (c.writeControl b).Sound := by
  obtain ⟨-, ⟨countLe, countPos⟩, phase⟩ := sound
  rw [Channel.writeControl_eq]
  refine ⟨⟨rfl, rfl, rfl, rfl⟩, ⟨?_, ?_⟩, phase⟩
  · dsimp only
    split
    · exact Nat.zero_le _
    · exact countLe
  · intro running
    obtain ⟨⟨running, notReset⟩, -⟩ : (c.isRunning = true ∧ decRST b = false) ∧ decTCF b = false := by
      simpa using running
    simpa [notReset] using countPos running

theorem started_sound {c : Channel} (sound : c.Sound) (k : Byte) : (c.started k).Sound := by
  obtain ⟨config, -, phase⟩ := sound
  exact ⟨config, ⟨reload_le k, fun _ => reload_pos k⟩, phase⟩

theorem counted_sound {c : Channel} (sound : c.Sound) : c.counted.Sound := by
  obtain ⟨config, ⟨countLe, -⟩, phase⟩ := sound
  have range : c.counted.CountInRange :=
    ⟨counted_currentCount_le countLe, fun _ => one_le_counted_currentCount c⟩
  rw [counted_frame] at range ⊢
  exact ⟨config, range, phase⟩

/-- A TICK stores an accumulator below the divisor, or 0 (R113). -/
theorem ticked_sound {c : Channel} (sound : c.Sound) : c.ticked.Sound := by
  obtain ⟨config, count, phase⟩ := sound
  obtain ⟨-, ticks⟩ | ⟨-, -, short, ticks⟩ | ⟨-, -, -, ticks⟩ := ticked_cases c <;> rw [ticks]
  · exact ⟨config, count, phase⟩
  · have belowDivisor : c.triggerCount + 1 ≤ 255 := by
      have := divisor_le c.prescaler
      omega
    exact ⟨config, count, belowDivisor⟩
  · exact counted_sound ⟨config, count, Nat.zero_le _⟩

theorem triggered_sound {c : Channel} (sound : c.Sound) (level : Bool) : (c.triggered level).Sound := by
  rw [Channel.triggered]
  split
  · exact counted_sound sound
  · exact sound

/-! ### Every instruction and every step -/

theorem after_sound {s : State} {j : ChannelId} (sound : (s.channel j).Sound) (i : Instr) :
    ((after i s).channel j).Sound := by
  have written (p : Prop) [Decidable p] {c : Channel} (kept : c.Sound) : (if p then c else s.channel j).Sound :=
    iteInduction (motive := Channel.Sound) (fun _ => kept) fun _ => sound
  rw [after_channel]
  cases i with
  | init freq => exact reset_sound
  | tick => exact ticked_sound sound
  | getvec idx => exact sound
  | sethnd install => exact sound
  | haspend => exact sound
  | wctl idx b => exact written _ (writeControl_sound sound b)
  | wtc idx k => exact written _ (started_sound sound k)
  | trig idx level => exact written _ (triggered_sound sound level)
  | setcb idx install => exact written _ sound
  | setvec idx v => exact written _ sound
  | ack => exact written _ sound

/-- Settles O47: the four channels are `Channel.reset`, and the index is at the end of the empty list. -/
theorem resetMeetsTheInvariant : Obligations.ResetMeetsTheInvariant := by
  refine ⟨fun i => ?_, le_refl 0⟩
  rw [State.channel, State.reset, Channels.reset_get]
  exact reset_sound

/-- Settles O48: a completed step ran one instruction, which keeps every channel sound (`after_sound`), on a command that
was in the list, so the index moves at most to the list's end. -/
theorem everyStepKeepsTheInvariant : Obligations.EveryStepKeepsTheInvariant := by
  rintro s t ⟨sound, -⟩ completes
  obtain ⟨c, i, fetched, rfl⟩ := step_eq_next completes
  obtain ⟨program, index, -⟩ := after_sameHost i (s.present c.answer)
  refine ⟨fun j => after_sound (s := s.present c.answer) (sound j) i, ?_⟩
  have within : s.index < s.program.length := (List.getElem?_eq_some_iff.mp fetched).1
  rw [State.advance_index, State.advance_program, index, program]
  exact within

end Sys2Proof.Proofs
end

section
/-!
The channel configuration operations (40_channel_config.md R100 to R104): what each leaves in the channel its index names,
and their frame.
-/
namespace Sys2Proof.Proofs
open Sys2Proof.Machine

/-! ### WCTL -/

theorem after_wctl_channel (idx b : Byte) (s : State) (j : ChannelId) :
    (after (.wctl idx b) s).channel j =
      if idx.toNat = j.val then (s.channel j).writeControl b else s.channel j :=
  after_channel _ s j

/-- Settles O17: the channel WCTL is addressed to is `Channel.writeControl_eq`'s, and the rest is `after`'s frame. -/
theorem wctlWritesTheControlWord : Obligations.WctlWritesTheControlWord := by
  intro idx b s initialised
  refine ⟨after (.wctl idx b) s, exec_of_initialised initialised _, fun j => ?_, after_ctl _ s, after_sameHost _ s,
    after_response _ s, after_events _ s⟩
  rw [after_wctl_channel, Channel.writeControl_eq]
  rfl

/-- Every field a control write touches is set from the byte or cleared, so a second write of the byte finds it so. -/
theorem writeControl_idem (b : Byte) (c : Channel) : (c.writeControl b).writeControl b = c.writeControl b := by
  simp only [Channel.writeControl_eq, Channel.configured]
  cases decRST b <;> cases decTCF b <;> simp

theorem after_wctl_idem (idx b : Byte) (s : State) :
    after (.wctl idx b) (after (.wctl idx b) s) = after (.wctl idx b) s := by
  obtain ⟨program, index, hostAnswer⟩ := after_sameHost (.wctl idx b) (after (.wctl idx b) s)
  refine State.ext_channel (fun j => ?_) (after_ctl _ _) program index hostAnswer
    ((after_response _ _).trans (after_response (.wctl idx b) s).symm)
    ((after_events _ _).trans (after_events (.wctl idx b) s).symm)
  rw [after_wctl_channel, after_wctl_channel]
  split
  · exact writeControl_idem b _
  · rfl

/-- Settles O18, by `after_wctl_idem`. -/
theorem wctlTwiceIsWctlOnce : Obligations.WctlTwiceIsWctlOnce := by
  intro idx b s initialised
  refine ⟨after (.wctl idx b) s, exec_of_initialised initialised _, ?_⟩
  rw [exec_of_initialised (after_initialised initialised _), after_wctl_idem]

/-! ### WTC and SETCB -/

theorem after_wtc_channel (idx k : Byte) (s : State) (j : ChannelId) :
    (after (.wtc idx k) s).channel j = if idx.toNat = j.val then (s.channel j).started k else s.channel j :=
  after_channel _ s j

/-- Settles O19: the channel WTC is addressed to is `started`, its count `reload k` as O16 gives it. -/
theorem wtcLoadsAndStartsTheChannel : Obligations.WtcLoadsAndStartsTheChannel := by
  intro idx k s initialised
  refine ⟨after (.wtc idx k) s, exec_of_initialised initialised _, fun j => ?_, after_ctl _ s, after_sameHost _ s,
    after_response _ s, after_events _ s⟩
  obtain ⟨value, -⟩ := reloadOfTimeConstant k
  rw [after_wtc_channel, ← value]
  rfl

/-- Settles O22: SETCB's whole effect is in `after`'s laws. -/
theorem setcbSetsTheInstallFlag : Obligations.SetcbSetsTheInstallFlag := by
  intro idx install s initialised
  exact ⟨after (.setcb idx install) s, exec_of_initialised initialised _, after_channel _ s, after_ctl _ s,
    after_sameHost _ s, after_response _ s, after_events _ s⟩

/-! ### GETVEC -/

/-- The vector GETVEC answers with, 0x00 where the index names no channel (R51, R103). -/
theorem vectorAt_eq (s : State) (idx : Byte) :
    s.vectorAt idx = (channelOf idx).elim 0x00 fun i => (s.channel i).interruptVector := by
  unfold State.vectorAt
  cases channelOf idx <;> rfl

theorem channelOf_of_beyond {idx : Byte} (beyond : 4 ≤ idx.toNat) : channelOf idx = none := by
  obtain ⟨i, -, value⟩ | ⟨unnamed, -⟩ := channelOf_cases idx
  · have := i.isLt
    omega
  · exact unnamed

theorem exec_getvec {s : State} (initialised : s.ctl.initialised = true) (idx : Byte) :
    exec (.getvec idx) s = .next { s with response := .byte (s.vectorAt idx), events := [] } :=
  exec_of_initialised initialised (.getvec idx)

/-- Settles O21, by `exec_getvec` and `vectorAt_eq`. -/
theorem getvecAnswersTheStoredVector : Obligations.GetvecAnswersTheStoredVector := by
  intro idx s initialised
  rw [exec_getvec initialised, vectorAt_eq]
  refine ⟨fun j here => ?_, fun beyond => ?_⟩
  · rw [channelOf_eq_some.mpr here, Option.elim_some]
  · rw [channelOf_of_beyond beyond, Option.elim_none]

end Sys2Proof.Proofs
end

section
/-!
The operations addressed to a channel (00_scope.md R17; 20_memory.md R51): what they do to the channel their index names,
that an index above 3 makes them do nothing, and that they neither write nor read another channel.
-/
namespace Sys2Proof.Proofs
open Sys2Proof.Machine

/-! ### The addressed operations, said once -/

/-- What an operation addressed to a channel does to it. -/
def addressedWrite : Instr → Channel → Channel
  | .wctl _ b, c => c.writeControl b
  | .wtc _ k, c => c.started k
  | .setcb _ install, c => { c with cbInstalled := install }
  | .trig _ level, c => c.triggered level
  | .setvec _ v, c => { c with interruptVector := v }
  | _, c => c

/-- The events of an operation addressed to channel j; only TRIG's can be some (R154). -/
def addressedEvents : Instr → Channel → ChannelId → List Event
  | .trig _ level, c, j => c.trigEvents level j
  | _, _, _ => []

/-- The answer of an operation addressed to a channel; only GETVEC answers. -/
def addressedResponse : Instr → Option Channel → Response
  | .getvec _, c => .byte (c.elim 0x00 (·.interruptVector))
  | _, _ => .none

section
variable {i : Instr} {idx : Byte} (addressed : i.index? = some idx) (s : State)
include addressed

theorem after_channel_of_addressed (j : ChannelId) :
    (after i s).channel j = if idx.toNat = j.val then addressedWrite i (s.channel j) else s.channel j := by
  rw [after_channel]
  cases i with
  | getvec idx => exact (ite_self _).symm
  | _ => cases addressed <;> rfl

theorem after_ctl_of_addressed : (after i s).ctl = s.ctl := by
  rw [after_ctl]
  cases i <;> cases addressed <;> rfl

theorem after_events_of_addressed :
    (after i s).events = (channelOf idx).elim [] fun k => addressedEvents i (s.channel k) k := by
  cases i with
  | trig idx' level =>
    cases addressed
    exact after_trig_events idx level s
  | _ =>
    rw [after_events]
    cases addressed <;> cases channelOf idx <;> rfl

theorem after_response_of_addressed :
    (after i s).response = addressedResponse i ((channelOf idx).map s.channel) := by
  rw [after_response]
  cases i with
  | getvec idx' =>
    cases addressed
    simp only [vectorAt_eq, addressedResponse]
    cases channelOf idx <;> rfl
  | _ => cases addressed <;> rfl

end

/-! ### An index above 3 -/

/-- Settles O23: no channel has the index, so nothing is written, emitted or read. -/
theorem outOfRangeIndexChangesNothing : Obligations.OutOfRangeIndexChangesNothing := by
  intro i idx s initialised addressed beyond
  have unnamed : channelOf idx = none := channelOf_of_beyond beyond
  obtain ⟨program, index, hostAnswer⟩ := after_sameHost i s
  rw [exec_of_initialised initialised]
  refine congrArg _ (State.ext_channel (fun j => ?_) (after_ctl_of_addressed addressed s) program index hostAnswer
    ((after_response_of_addressed addressed s).trans ?_) ((after_events_of_addressed addressed s).trans ?_))
  · have other : idx.toNat ≠ j.val := by
      have := j.isLt
      omega
    rw [after_channel_of_addressed addressed, if_neg other]
    rfl
  · rw [unnamed]
    cases i <;> cases addressed <;> simp [addressedResponse]
  · rw [unnamed, Option.elim_none]

/-! ### Another channel -/

/-- Replacing a channel an operation is not addressed to replaces that channel of the outcome, and nothing else. -/
theorem after_setChannel_of_addressed {i : Instr} {idx : Byte} {j : ChannelId} (addressed : i.index? = some idx)
    (other : idx.toNat ≠ j.val) (s : State) (c : Channel) :
    after i (s.setChannel j c) = (after i s).setChannel j c := by
  have unread (k : ChannelId) (named : channelOf idx = some k) : (s.setChannel j c).channel k = s.channel k := by
    rw [State.setChannel_channel, if_neg]
    rintro rfl
    exact other (channelOf_eq_some.mp named)
  obtain ⟨program, index, hostAnswer⟩ := after_sameHost i s
  obtain ⟨program', index', hostAnswer'⟩ := after_sameHost i (s.setChannel j c)
  refine State.ext_channel (fun k => ?_) ?_ (program'.trans program.symm) (index'.trans index.symm)
    (hostAnswer'.trans hostAnswer.symm) ?_ ?_
  · rw [after_channel_of_addressed addressed, State.setChannel_channel, State.setChannel_channel,
      after_channel_of_addressed addressed]
    by_cases replaced : k = j
    · rw [if_pos replaced, if_pos replaced, if_neg (replaced ▸ other)]
    · rw [if_neg replaced, if_neg replaced]
  · exact (after_ctl_of_addressed addressed _).trans (after_ctl_of_addressed addressed s).symm
  · rw [State.setChannel_response, after_response_of_addressed addressed, after_response_of_addressed addressed]
    cases named : channelOf idx with
    | none => rfl
    | some k => rw [Option.map_some, Option.map_some, unread k named]
  · rw [State.setChannel_events, after_events_of_addressed addressed, after_events_of_addressed addressed]
    cases named : channelOf idx with
    | none => rfl
    | some k => rw [Option.elim_some, Option.elim_some, unread k named]

/-- Settles O24: not written by `after_channel_of_addressed`, not read by `after_setChannel_of_addressed`. -/
theorem channelsAreIndependent : Obligations.ChannelsAreIndependent := by
  intro i idx j s t addressed other completes
  obtain ⟨rfl, initialised | ⟨freq, rfl⟩⟩ := exec_eq_next completes
  · refine ⟨?_, fun c => ?_⟩
    · rw [after_channel_of_addressed addressed, if_neg other]
    · have stillInitialised : (s.setChannel j c).ctl.initialised = true := initialised
      rw [exec_of_initialised stillInitialised, after_setChannel_of_addressed addressed other]
  · cases addressed

end Sys2Proof.Proofs
end

section
/-!
The writers of each field (10_state.md R22 to R37): all that an instruction other than INIT can do to one channel, and what
each field keeps.
-/
namespace Sys2Proof.Proofs
open Sys2Proof.Machine

/-- All that an instruction other than INIT can do to channel j: nothing, the write it is addressed to the channel with,
TICK's count, or ACK's clearing of the latch. -/
theorem after_channel_cases {i : Instr} (notInit : ∀ freq, i ≠ .init freq) (s : State) (j : ChannelId) :
    (after i s).channel j = s.channel j
      ∨ (∃ idx b, i = .wctl idx b ∧ idx.toNat = j.val ∧ (after i s).channel j = (s.channel j).writeControl b)
      ∨ (∃ idx k, i = .wtc idx k ∧ idx.toNat = j.val ∧ (after i s).channel j = (s.channel j).started k)
      ∨ (∃ idx install, i = .setcb idx install ∧ idx.toNat = j.val
          ∧ (after i s).channel j = { s.channel j with cbInstalled := install })
      ∨ (∃ idx level, i = .trig idx level ∧ idx.toNat = j.val
          ∧ (after i s).channel j = (s.channel j).triggered level)
      ∨ (∃ idx v, i = .setvec idx v ∧ idx.toNat = j.val
          ∧ (after i s).channel j = { s.channel j with interruptVector := v })
      ∨ (i = .tick ∧ (after i s).channel j = (s.channel j).ticked)
      ∨ (i = .ack ∧ (after i s).channel j = { s.channel j with interruptPending := false }) := by
  rw [after_channel]
  cases i with
  | init freq => exact absurd rfl (notInit freq)
  | tick => simp
  | ack =>
    dsimp only
    split <;> simp
  | getvec idx => exact .inl rfl
  | sethnd install => exact .inl rfl
  | haspend => exact .inl rfl
  | trig idx level =>
    by_cases here : idx.toNat = j.val
    · exact .inr (.inr (.inr (.inr (.inl ⟨idx, level, rfl, here, if_pos here⟩))))
    · exact .inl (if_neg here)
  | wctl idx b | wtc idx k | setcb idx install | setvec idx v =>
    by_cases here : idx.toNat = j.val <;> simp [here]

/-! ### The prescaler accumulator -/

theorem writeControl_triggerCount (b : Byte) (c : Channel) : (c.writeControl b).triggerCount = c.triggerCount := by
  rw [Channel.writeControl_eq]
  rfl

theorem triggered_triggerCount (level : Bool) (c : Channel) : (c.triggered level).triggerCount = c.triggerCount := by
  rw [triggered_frame]

/-- A TICK leaves a channel that is in Counter mode or stopped (R113). -/
theorem ticked_of_counter_or_stopped {c : Channel} (still : c.mode = .counter ∨ c.isRunning = false) : c.ticked = c := by
  obtain counter | stopped := still
  · exact ticked_of_not_counting (by simp [counter])
  · exact ticked_of_stopped stopped

/-- Settles O33: of the writes of `after_channel_cases` only TICK's writes the accumulator, and not of a channel it does not
count. -/
theorem prescalerPhaseIsWrittenOnlyByTickAndInit : Obligations.PrescalerPhaseIsWrittenOnlyByTickAndInit := by
  intro i s t j completes notInit still
  obtain ⟨rfl, -⟩ := exec_eq_next completes
  obtain same | ⟨_, b, -, -, write⟩ | ⟨_, k, -, -, write⟩ | ⟨_, install, -, -, write⟩ | ⟨_, level, -, -, write⟩
    | ⟨_, v, -, -, write⟩ | ⟨isTick, write⟩ | ⟨-, write⟩ := after_channel_cases notInit s j
  · rw [same]
  · rw [write, writeControl_triggerCount]
  · rw [write, Channel.started]
  · rw [write]
  · rw [write, triggered_triggerCount]
  · rw [write]
  · rw [write, ticked_of_counter_or_stopped (still isTick)]
  · rw [write]

/-! ### The configured fields -/

/-- The Controller's frequency and initialised bit are INIT's alone, its handler flag SETHND's as well (R35 to R37). -/
theorem after_ctl_frame {i : Instr} (notInit : ∀ freq, i ≠ .init freq) (s : State) :
    ((∀ install, i ≠ .sethnd install) → (after i s).ctl.handlerInstalled = s.ctl.handlerInstalled)
      ∧ (after i s).ctl.systemClockFrequency = s.ctl.systemClockFrequency
      ∧ (after i s).ctl.initialised = s.ctl.initialised := by
  rw [after_ctl]
  cases i with
  | init freq => exact absurd rfl (notInit freq)
  | sethnd install => exact ⟨fun other => absurd rfl (other install), rfl, rfl⟩
  | _ => exact ⟨fun _ => rfl, rfl, rfl⟩

/-- Settles O34: each write of `after_channel_cases` touches the fields it owns, by its frame lemma, and the Controller is
`after_ctl_frame`'s. -/
theorem everyFieldHasItsOwnWriters : Obligations.EveryFieldHasItsOwnWriters := by
  intro i s t j completes notInit
  obtain ⟨rfl, -⟩ := exec_eq_next completes
  have controller := after_ctl_frame notInit s
  obtain same | ⟨idx, b, isWctl, here, write⟩ | ⟨idx, k, isWtc, here, write⟩ | ⟨idx, install, isSetcb, here, write⟩
    | ⟨idx, level, isTrig, here, write⟩ | ⟨idx, v, isSetvec, here, write⟩ | ⟨-, write⟩ | ⟨-, write⟩ :=
    after_channel_cases notInit s j
  · rw [same]
    exact ⟨fun _ => rfl, fun _ => ⟨rfl, rfl, rfl, rfl, rfl⟩, fun _ => rfl, fun _ => rfl, fun _ => rfl, controller⟩
  · rw [write, Channel.writeControl_eq]
    exact ⟨fun _ => rfl, fun other => absurd here (other idx b isWctl), fun _ => rfl, fun _ => rfl, fun _ => rfl,
      controller⟩
  · rw [write]
    exact ⟨fun _ => rfl, fun _ => ⟨rfl, rfl, rfl, rfl, rfl⟩, fun other => absurd here (other idx k isWtc),
      fun _ => rfl, fun _ => rfl, controller⟩
  · rw [write]
    exact ⟨fun _ => rfl, fun _ => ⟨rfl, rfl, rfl, rfl, rfl⟩, fun _ => rfl, fun _ => rfl,
      fun other => absurd here (other idx install isSetcb), controller⟩
  · rw [write, triggered_frame]
    exact ⟨fun _ => rfl, fun _ => ⟨rfl, rfl, rfl, rfl, rfl⟩, fun _ => rfl,
      fun other => absurd here (other idx level isTrig), fun _ => rfl, controller⟩
  · rw [write]
    exact ⟨fun other => absurd here (other idx v isSetvec), fun _ => ⟨rfl, rfl, rfl, rfl, rfl⟩, fun _ => rfl,
      fun _ => rfl, fun _ => rfl, controller⟩
  · rw [write, ticked_frame]
    exact ⟨fun _ => rfl, fun _ => ⟨rfl, rfl, rfl, rfl, rfl⟩, fun _ => rfl, fun _ => rfl, fun _ => rfl, controller⟩
  · rw [write]
    exact ⟨fun _ => rfl, fun _ => ⟨rfl, rfl, rfl, rfl, rfl⟩, fun _ => rfl, fun _ => rfl, fun _ => rfl, controller⟩

end Sys2Proof.Proofs
end

section
/-!
What no operation reads: the clock frequency (10_state.md R35) and, but for a handled ACK, the host-answer port
(00_scope.md R7).
-/
namespace Sys2Proof.Proofs
open Sys2Proof.Machine

/-- An instruction that completes in one state completes in every other that is initialised alike (R161). -/
theorem exec_completes_alike {i : Instr} {s s' t : State} (completes : exec i s = .next t)
    (same : s'.ctl.initialised = s.ctl.initialised) : t = after i s ∧ exec i s' = .next (after i s') := by
  obtain ⟨ends, initialised | ⟨freq, rfl⟩⟩ := exec_eq_next completes
  · exact ⟨ends, exec_of_initialised (same.trans initialised) i⟩
  · exact ⟨ends, rfl⟩

/-- The state with another clock frequency. -/
def withFrequency (freq : Frequency) (s : State) : State :=
  { s with ctl := { s.ctl with systemClockFrequency := freq } }

theorem after_withFrequency {i : Instr} (notInit : ∀ f, i ≠ .init f) (freq : Frequency) (s : State) :
    after i (withFrequency freq s) = withFrequency freq (after i s) := by
  obtain ⟨program, index, hostAnswer⟩ := after_sameHost i s
  obtain ⟨program', index', hostAnswer'⟩ := after_sameHost i (withFrequency freq s)
  refine State.ext_channel (fun j => (after_channel i _ j).trans (after_channel i s j).symm) ?_
    (program'.trans program.symm) (index'.trans index.symm) (hostAnswer'.trans hostAnswer.symm)
    ((after_response i _).trans (after_response i s).symm) ((after_events i _).trans (after_events i s).symm)
  have carried : (withFrequency freq (after i s)).ctl = { (after i s).ctl with systemClockFrequency := freq } := rfl
  rw [carried, after_ctl, after_ctl]
  cases i with
  | init f => exact absurd rfl (notInit f)
  | _ => rfl

/-- Settles O45: INIT's state is the same whatever was there, and every other operation carries the frequency through
(`after_withFrequency`). -/
theorem clockFrequencyNeverMatters : Obligations.ClockFrequencyNeverMatters := by
  intro i s t freq completes
  obtain ⟨rfl, completes'⟩ := exec_completes_alike (s' := withFrequency freq s) completes rfl
  refine completes'.trans (congrArg _ ?_)
  cases i with
  | init f => rfl
  | _ => exact after_withFrequency (by simp) freq s

/-- Without an ACK that invokes the handler no answer is the host's (R121). -/
theorem after_response_present {i : Instr} {s : State} (answer : Byte)
    (unread : i = .ack → s.ctl.handlerInstalled = false ∨ ∀ j : ChannelId, (s.channel j).requests = false) :
    (after i (s.present answer)).response = (after i s).response := by
  rw [after_response, after_response]
  cases i with
  | ack =>
    have selects : (s.present answer).selected = s.selected := rfl
    obtain unhandled | quiet := unread rfl
    · simp [selects, unhandled]
    · simp [selects, (selected_eq_none_iff s).mpr quiet]
  | _ => rfl

theorem after_present {i : Instr} {s : State} (answer : Byte)
    (unread : i = .ack → s.ctl.handlerInstalled = false ∨ ∀ j : ChannelId, (s.channel j).requests = false) :
    after i (s.present answer) = (after i s).present answer := by
  obtain ⟨program, index, -⟩ := after_sameHost i s
  obtain ⟨program', index', hostAnswer'⟩ := after_sameHost i (s.present answer)
  exact State.ext_channel (fun j => (after_channel i _ j).trans (after_channel i s j).symm)
    ((after_ctl i _).trans (after_ctl i s).symm) (program'.trans program.symm) (index'.trans index.symm) hostAnswer'
    (after_response_present answer unread) ((after_events i _).trans (after_events i s).symm)

/-- Settles O46, by `after_present`. -/
theorem hostAnswerIsReadOnlyByAHandledAck : Obligations.HostAnswerIsReadOnlyByAHandledAck := by
  intro i s t answer unread completes
  obtain ⟨rfl, completes'⟩ := exec_completes_alike (s' := s.present answer) completes rfl
  exact completes'.trans (congrArg _ (after_present answer unread))

end Sys2Proof.Proofs
end

section
/-!
The interrupt arbiter (42_interrupts.md R120 to R122; 60_exceptions.md R147, R148): ACK with a request, as many ACKs as
there are requests, and what configuration does to a pending request.
-/
namespace Sys2Proof.Proofs
open Sys2Proof.Machine

/-! ### ACK -/

theorem after_ack_channel_of_selected {s : State} {i : ChannelId} (chosen : s.selected = some i) (j : ChannelId) :
    (after .ack s).channel j = if j = i then { s.channel i with interruptPending := false } else s.channel j := by
  refine (after_channel .ack s j).trans ?_
  dsimp only
  by_cases here : j = i
  · rw [if_pos here, if_pos (here ▸ chosen), here]
  · rw [if_neg here, if_neg fun also => here (Option.some.inj (also.symm.trans chosen))]

theorem after_ack_events_of_selected {s : State} {i : ChannelId} (chosen : s.selected = some i) :
    (after .ack s).events = if s.ctl.handlerInstalled then [.hnd i] else [] := by
  simp only [after_events, chosen]

theorem requests_eq_false_iff (c : Channel) :
    c.requests = false ↔ c.interruptEnabled = false ∨ c.interruptPending = false :=
  Bool.and_eq_false_iff

/-- Settles O39: the channel is the selected one (`selected_eq_some_iff`), of which the laws of `after .ack` speak. -/
theorem ackTakesTheLowestRequestingChannel : Obligations.AckTakesTheLowestRequestingChannel := by
  intro s i initialised enabled pending quietBelow
  have chosen : s.selected = some i := (selected_eq_some_iff s i).mpr
    ⟨(requests_iff _).mpr ⟨enabled, pending⟩, fun j below => (requests_eq_false_iff _).mpr (quietBelow j below)⟩
  exact ⟨after .ack s, exec_of_initialised initialised .ack, after_ack_channel_of_selected chosen, after_ctl _ s,
    after_sameHost _ s, after_ack_response_of_selected chosen, after_ack_events_of_selected chosen⟩

/-! ### As many ACKs as requests -/

/-- The channels that request (R146). -/
def requesters (s : State) : List ChannelId := channelIds.filter fun j => (s.channel j).requests

/-- A channel with its interrupt acknowledged, if it requests one; a disabled channel keeps its latch (R121, R167). -/
def acknowledged (c : Channel) : Channel :=
  { c with interruptPending := c.interruptPending && !c.interruptEnabled }

theorem mem_requesters {s : State} {j : ChannelId} : j ∈ requesters s ↔ (s.channel j).requests = true := by
  simp [requesters]

theorem acknowledged_requests (c : Channel) : (acknowledged c).requests = false := by
  rw [requests_eq_false_iff, acknowledged]
  cases c.interruptEnabled <;> simp

theorem acknowledged_of_not_requests {c : Channel} (quiet : c.requests = false) : acknowledged c = c := by
  have kept : (c.interruptPending && !c.interruptEnabled) = c.interruptPending := by
    obtain disabled | idle := (requests_eq_false_iff c).mp quiet
    · simp [disabled]
    · simp [idle]
  rw [acknowledged, kept]

/-- Clearing the latch of a channel that requests is acknowledging it. -/
theorem acknowledged_cleared {c : Channel} (asks : c.requests = true) :
    acknowledged { c with interruptPending := false } = acknowledged c := by
  obtain ⟨enabled, -⟩ := (requests_iff c).mp asks
  simp [acknowledged, enabled]

/-- An ACK takes its channel off the requesters and leaves the others on (R121, R148). -/
theorem requesters_after_ack {s : State} {i : ChannelId} (chosen : s.selected = some i) :
    requesters (after .ack s) = (requesters s).erase i := by
  have nodup : (requesters s).Nodup := List.Nodup.filter _ (by decide)
  rw [nodup.erase_eq_filter, requesters, requesters, List.filter_filter]
  refine List.filter_congr fun j _ => ?_
  rw [after_ack_channel_of_selected chosen]
  by_cases here : j = i
  · simp [here, Channel.requests]
  · simp [here]

/-- Each ACK takes one requester, so after as many as there are no channel requests any more. -/
theorem afterAll_acks_channel (n : Nat) (s : State) (count : (requesters s).length = n) (j : ChannelId) :
    (afterAll (List.replicate n .ack) s).channel j = acknowledged (s.channel j) := by
  induction n generalizing s with
  | zero =>
    have quiet : (s.channel j).requests = false := by
      rw [Bool.eq_false_iff, Ne, ← mem_requesters, List.eq_nil_of_length_eq_zero count]
      exact List.not_mem_nil
    exact (acknowledged_of_not_requests quiet).symm
  | succ n ih =>
    obtain ⟨i, chosen, asks, -⟩ | ⟨-, quiet⟩ := s.selected_cases
    · have fewer : (requesters (after .ack s)).length = n := by
        rw [requesters_after_ack chosen, List.length_erase_of_mem (mem_requesters.mpr asks), count, Nat.add_sub_cancel]
      refine (ih (after .ack s) fewer).trans ?_
      rw [after_ack_channel_of_selected chosen]
      split
      · next here => rw [acknowledged_cleared asks, here]
      · rfl
    · have none : requesters s = [] := List.filter_eq_nil_iff.mpr fun k _ => by simp [quiet k]
      rw [none] at count
      exact nomatch count

/-- Settles O41: the ACKs complete and leave every channel acknowledged (`afterAll_acks_channel`), so none requests. -/
theorem acksDrainAllRequests : Obligations.AcksDrainAllRequests := by
  intro s initialised
  have channels := afterAll_acks_channel (requesters s).length s rfl
  refine ⟨_, _, execAll_of_initialised initialised _, channels,
    exec_haspend_of_quiet (afterAll_initialised initialised _) fun j => ?_, rfl⟩
  exact (congrArg Channel.requests (channels j)).trans (acknowledged_requests _)

/-! ### SETHND -/

/-- Settles O42: SETHND's whole effect is in `after`'s laws. -/
theorem sethndSetsTheHandlerFlag : Obligations.SethndSetsTheHandlerFlag := by
  intro install s initialised
  exact ⟨after (.sethnd install) s, exec_of_initialised initialised _, after_ctl _ s, after_channel _ s,
    after_sameHost _ s, after_response _ s, after_events _ s⟩

/-! ### A pending request and the channel's configuration (R167) -/

theorem writeControl_requests (b : Byte) (c : Channel) :
    (c.writeControl b).requests = (b.getLsbD 7 && (c.interruptPending && !b.getLsbD 1)) := by
  rw [Channel.requests, writeControl_interruptPending, Channel.writeControl_eq]
  rfl

section
variable {idx : Byte} {j : ChannelId} (here : idx.toNat = j.val) (s : State)
include here

/-- After WCTL the channel it is addressed to requests if bit 7 enables it, with a latch bit 1 has not cleared. -/
theorem after_wctl_requests (b : Byte) :
    ((after (.wctl idx b) s).channel j).requests =
      (b.getLsbD 7 && ((s.channel j).interruptPending && !b.getLsbD 1)) := by
  rw [after_wctl_channel, if_pos here, writeControl_requests]

theorem after_wctl_interruptPending (b : Byte) :
    ((after (.wctl idx b) s).channel j).interruptPending = ((s.channel j).interruptPending && !b.getLsbD 1) := by
  rw [after_wctl_channel, if_pos here, writeControl_interruptPending]

theorem after_wtc_interruptPending (k : Byte) : ((after (.wtc idx k) s).channel j).interruptPending = false := by
  rw [after_wtc_channel, if_pos here, started_interruptPending]

end

/-- Settles O43: the first WCTL keeps the latch, which the last then shows; a WTC or a WCTL with bit 1 set between them
clears it. -/
theorem disabledPendingInterruptReappears : Obligations.DisabledPendingInterruptReappears := by
  intro s idx off on k j initialised here pending offDisables offKeeps onEnables onKeeps
  have completes (i : Instr) {s : State} (h : s.ctl.initialised = true) := exec_of_initialised h i
  have disabled : (after (.wctl idx off) s).ctl.initialised = true := after_initialised initialised _
  refine ⟨_, _, _, _, completes _ initialised, ?_, completes _ disabled, ?_, completes _ disabled,
    completes _ (after_initialised disabled _), ?_, fun b resets =>
      ⟨_, _, completes _ disabled, completes _ (after_initialised disabled _), ?_⟩⟩
  · rw [after_wctl_requests here, offDisables, Bool.false_and]
  · rw [after_wctl_requests here, after_wctl_interruptPending here, pending, offKeeps, onEnables, onKeeps]
    rfl
  · rw [after_wctl_requests here, after_wtc_interruptPending here, Bool.false_and, Bool.and_false]
  · rw [after_wctl_requests here, after_wctl_interruptPending here, resets, Bool.not_true, Bool.and_false,
      Bool.false_and, Bool.and_false]

/-! ### Reads (20_memory.md R57) -/

theorem after_ack_ch_of_selected {s : State} {i : ChannelId} (chosen : s.selected = some i) :
    (after .ack s).ch = s.ch.set i { s.channel i with interruptPending := false } := by
  refine Channels.ext_get fun j => ?_
  exact (after_ack_channel_of_selected chosen j).trans (Channels.get_set s.ch i j _).symm

/-- What ACK does to the channels: nothing, with no request, or it clears one requesting channel's latch. -/
theorem exec_ack_cases {s : State} (initialised : s.ctl.initialised = true) :
    ∃ t b, exec .ack s = .next t ∧ t.response = .byte b ∧ t.ctl = s.ctl
      ∧ ((t.ch = s.ch ∧ ∀ j : ChannelId, (s.channel j).requests = false)
          ∨ ∃ i : ChannelId, (s.channel i).requests = true
              ∧ t.ch = s.ch.set i { s.channel i with interruptPending := false }) := by
  obtain ⟨i, chosen, asks, -⟩ | ⟨-, quiet⟩ := s.selected_cases
  · exact ⟨after .ack s, _, exec_of_initialised initialised _, after_ack_response_of_selected chosen, after_ctl _ s,
      .inr ⟨i, asks, after_ack_ch_of_selected chosen⟩⟩
  · exact ⟨_, _, exec_ack_of_quiet initialised quiet, rfl, rfl, .inl ⟨rfl, quiet⟩⟩

/-- Settles O44: `exec_getvec` and `exec_haspend` write the two output ports alone, so the same read answers the same state
again; ACK is `exec_ack_cases`, and the rest answer nothing by `after_response`. -/
theorem readsAndTheirSideEffects : Obligations.ReadsAndTheirSideEffects := by
  refine ⟨fun idx s initialised => ?_, fun s initialised => ?_, fun s => exec_ack_cases, ?_⟩
  · exact ⟨_, exec_getvec initialised idx, rfl, rfl, exec_getvec initialised idx⟩
  · exact ⟨_, exec_haspend initialised, rfl, rfl, exec_haspend initialised⟩
  · intro i s t notGetvec notHaspend notAck completes
    obtain ⟨rfl, -⟩ := exec_eq_next completes
    rw [after_response]
    cases i with
    | getvec idx => exact absurd rfl (notGetvec idx)
    | haspend => exact absurd rfl notHaspend
    | ack => exact absurd rfl notAck
    | _ => rfl

end Sys2Proof.Proofs
end

section
/-!
The periods of a channel (41_counting.md R114; 70_reset_and_hazards.md R166, R175): where a full count stands after a number
of count-downs, then Timer mode over TICKs and Counter mode over pairs of levels.
-/
namespace Sys2Proof.Proofs
open Sys2Proof.Machine

/-! ### Runs of one repeated command -/

theorem afterAll_append (is is' : List Instr) (s : State) : afterAll (is ++ is') s = afterAll is' (afterAll is s) :=
  List.foldl_append

theorem afterAll_replicate_succ (n : Nat) (i : Instr) (s : State) :
    afterAll (List.replicate (n + 1) i) s = after i (afterAll (List.replicate n i) s) := by
  rw [List.replicate_succ', afterAll_append]
  rfl

/-- Over a run of TICKs every channel is ticked by itself (R113). -/
theorem afterAll_ticks_channel (n : Nat) (s : State) (j : ChannelId) :
    (afterAll (List.replicate n .tick) s).channel j = Channel.ticked^[n] (s.channel j) := by
  induction n with
  | zero => rfl
  | succ n ih => rw [afterAll_replicate_succ, after_tick_channel, ih, Function.iterate_succ_apply']

/-! ### A full count after a number of count-downs -/

/-- One more of what is counted by turns of p: it stays within the turn, or completes it. -/
theorem turn_cases {p : Nat} (pos : 1 ≤ p) (n : Nat) :
    (n % p + 1 < p ∧ (n + 1) % p = n % p + 1 ∧ (n + 1) / p = n / p)
      ∨ (n % p + 1 = p ∧ (n + 1) % p = 0 ∧ (n + 1) / p = n / p + 1) := by
  have parts := Nat.mod_add_div n p
  obtain within | complete := Nat.lt_or_eq_of_le (Nat.mod_lt n pos)
  · obtain ⟨turns, rest⟩ := (Nat.div_mod_unique (a := n + 1) (d := n / p) pos).mpr ⟨by omega, within⟩
    exact .inl ⟨within, rest, turns⟩
  · obtain ⟨turns, rest⟩ := (Nat.div_mod_unique (a := n + 1) (c := 0) (d := n / p + 1) pos).mpr
      ⟨by rw [Nat.mul_add]; omega, pos⟩
    exact .inr ⟨complete, rest, turns⟩

/-- The channel, its count full to begin with, after e count-downs: it has reloaded at every multiple of the reload value,
and latched its interrupt, if enabled, from the first of them on (R110, R111). -/
def countedAt (c : Channel) (e : Nat) : Channel :=
  { c with
    currentCount := reload c.timeConstant - e % reload c.timeConstant
    interruptPending :=
      c.interruptPending || (c.interruptEnabled && decide (reload c.timeConstant ≤ e)) }

theorem countedAt_zero {c : Channel} (full : c.currentCount = reload c.timeConstant) : countedAt c 0 = c := by
  have notYet : decide (reload c.timeConstant ≤ 0) = false := decide_eq_false (Nat.not_le.mpr (reload_pos _))
  rw [countedAt, notYet, Nat.zero_mod, Nat.sub_zero, ← full, Bool.and_false, Bool.or_false]

/-- The next count-down crosses zero exactly if it completes a multiple of the reload value. -/
theorem countedAt_currentCount_le_one_iff (c : Channel) (e : Nat) :
    (countedAt c e).currentCount ≤ 1 ↔ (e + 1) % reload c.timeConstant = 0 := by
  change reload c.timeConstant - e % reload c.timeConstant ≤ 1 ↔ _
  obtain ⟨within, rest, -⟩ | ⟨complete, rest, -⟩ := turn_cases (reload_pos c.timeConstant) e
  · omega
  · omega

theorem counted_countedAt (c : Channel) (e : Nat) : (countedAt c e).counted = countedAt c (e + 1) := by
  obtain ⟨within, rest, -⟩ | ⟨complete, rest, -⟩ := turn_cases (reload_pos c.timeConstant) e
  · have above : 1 < (countedAt c e).currentCount :=
      Nat.not_le.mp fun last => by
        rw [countedAt_currentCount_le_one_iff] at last
        omega
    have latch : reload c.timeConstant ≤ e ↔ reload c.timeConstant ≤ e + 1 := by
      refine ⟨fun le => by omega, fun le => Nat.lt_succ_iff.mp (Nat.lt_of_le_of_ne le fun reached => ?_)⟩
      have wraps : (e + 1) % reload c.timeConstant = 0 := by rw [reached, Nat.succ_eq_add_one, Nat.mod_self]
      omega
    rw [counted_of_one_lt above]
    simp only [countedAt, rest, latch, Nat.sub_add_eq]
  · have last : (countedAt c e).currentCount ≤ 1 := (countedAt_currentCount_le_one_iff c e).mpr rest
    have reached : reload c.timeConstant ≤ e + 1 := by
      have := Nat.mod_le e (reload c.timeConstant)
      omega
    rw [counted_of_le_one last]
    simp only [countedAt, Channel.reloaded, Channel.latchedPending, rest, reached, Nat.sub_zero, decide_true,
      Bool.and_true]
    cases c.interruptEnabled <;> simp

/-! ### Timer mode -/

/-- The Timer-mode channel after n TICKs from accumulator 0 and a full count: the accumulator turns with the divisor, and
each turn is one count-down (R113, R114). -/
def tickedAt (c : Channel) (n : Nat) : Channel :=
  countedAt { c with triggerCount := n % c.prescaler.divisor } (n / c.prescaler.divisor)

section
variable {c : Channel} (timer : c.mode = .timer) (running : c.isRunning = true)
include timer running

theorem ticked_tickedAt (n : Nat) : (tickedAt c n).ticked = tickedAt c (n + 1) := by
  have timer' : (tickedAt c n).mode = .timer := timer
  have running' : (tickedAt c n).isRunning = true := running
  obtain ⟨within, rest, turns⟩ | ⟨complete, rest, turns⟩ := turn_cases (divisor_pos c.prescaler) n
  · rw [ticked_of_lt timer' running' within, tickedAt, tickedAt, rest, turns]
    rfl
  · rw [ticked_of_le timer' running' complete.ge]
    refine (counted_countedAt { c with triggerCount := 0 } _).trans ?_
    rw [tickedAt, rest, turns]

theorem ticked_iterate_of_full (phase : c.triggerCount = 0) (full : c.currentCount = reload c.timeConstant) (n : Nat) :
    Channel.ticked^[n] c = tickedAt c n := by
  induction n with
  | zero =>
    have fromZero : { c with triggerCount := 0 } = c := by rw [← phase]
    rw [tickedAt, Nat.zero_mod, Nat.zero_div, fromZero, countedAt_zero full]
    rfl
  | succ n ih => rw [Function.iterate_succ_apply', ih, ticked_tickedAt timer running]

/-- The next TICK crosses zero exactly if it completes a multiple of the whole period, P times R (R114). -/
theorem tickCrosses_tickedAt_iff (n : Nat) :
    (tickedAt c n).tickCrosses = true ↔
      (n + 1) % (c.prescaler.divisor * reload c.timeConstant) = 0 := by
  have counting : (tickedAt c n).tickCrosses = true ↔
      c.prescaler.divisor ≤ n % c.prescaler.divisor + 1
        ∧ (n / c.prescaler.divisor + 1) % reload c.timeConstant = 0 := by
    rw [tickCrosses_iff, tickedAt, countedAt_currentCount_le_one_iff]
    exact ⟨fun ⟨_, _, turn, crossing⟩ => ⟨turn, crossing⟩, fun ⟨turn, crossing⟩ => ⟨timer, running, turn, crossing⟩⟩
  rw [counting, Nat.mod_mul]
  obtain ⟨within, rest, turns⟩ | ⟨complete, rest, turns⟩ := turn_cases (divisor_pos c.prescaler) n
  · rw [rest]
    omega
  · rw [rest, turns, Nat.zero_add, Nat.mul_eq_zero]
    have := divisor_pos c.prescaler
    omega

end

theorem tickedAt_eq (c : Channel) (n : Nat) :
    tickedAt c n =
      { c with
        triggerCount := n % c.prescaler.divisor
        currentCount := reload c.timeConstant - n / c.prescaler.divisor % reload c.timeConstant
        interruptPending := c.interruptPending || (c.interruptEnabled
          && decide (c.prescaler.divisor * reload c.timeConstant ≤ n)) } := by
  have latch : reload c.timeConstant ≤ n / c.prescaler.divisor ↔ c.prescaler.divisor * reload c.timeConstant ≤ n := by
    rw [Nat.le_div_iff_mul_le (divisor_pos _), Nat.mul_comm]
  simp only [tickedAt, countedAt, latch]

theorem mem_tickEvents (c : Channel) (i : ChannelId) (e : Event) :
    e ∈ c.tickEvents i ↔ e = .cb i ∧ c.tickCrosses = true ∧ c.cbInstalled = true := by
  rw [tickEvents_eq]
  split <;> simp [*]

theorem cb_mem_after_tick_events (s : State) (j : ChannelId) :
    .cb j ∈ (after .tick s).events ↔ (s.channel j).tickCrosses = true ∧ (s.channel j).cbInstalled = true := by
  rw [after_events]
  simp [mem_tickEvents]

/-- Settles O35: the channel is `tickedAt` after every number of TICKs (`ticked_iterate_of_full`), and the last TICK's event
is its crossing (`tickCrosses_tickedAt_iff`). -/
theorem timerChannelIsPeriodic : Obligations.TimerChannelIsPeriodic := by
  intro s j initialised timer running phase full n
  have channel (n : Nat) : (afterAll (List.replicate n .tick) s).channel j = tickedAt (s.channel j) n :=
    (afterAll_ticks_channel n s j).trans (ticked_iterate_of_full timer running phase full n)
  refine ⟨_, execAll_of_initialised initialised _, (channel n).trans (tickedAt_eq _ n), fun pos => ?_⟩
  obtain ⟨n, rfl⟩ := Nat.exists_eq_add_one_of_ne_zero pos.ne'
  rw [afterAll_replicate_succ, cb_mem_after_tick_events, channel, tickCrosses_tickedAt_iff timer running, and_comm]
  exact Iff.rfl

/-! ### The first decrement after a restart -/

/-- Short of the divisor TICKs only advance the accumulator (R113). -/
theorem ticked_iterate_of_short {c : Channel} (timer : c.mode = .timer) (running : c.isRunning = true) {n : Nat}
    (short : n = 0 ∨ c.triggerCount + n < c.prescaler.divisor) :
    Channel.ticked^[n] c = { c with triggerCount := c.triggerCount + n } := by
  induction n with
  | zero => rfl
  | succ n ih =>
    have below : c.triggerCount + n + 1 < c.prescaler.divisor := by omega
    rw [Function.iterate_succ_apply', ih (.inr (by omega))]
    exact ticked_of_lt (c := { c with triggerCount := c.triggerCount + n }) timer running below

/-- Settles O37: WTC leaves the accumulator, so the TICKs of `ticked_iterate_of_short` are those left to the divisor, and
the next one is the first to count. -/
theorem firstDecrementAfterRestart : Obligations.FirstDecrementAfterRestart := by
  intro s idx k j initialised here timer
  have channel (n : Nat) : (afterAll (.wtc idx k :: List.replicate n .tick) s).channel j =
      Channel.ticked^[n] ((s.channel j).started k) := by
    refine (afterAll_ticks_channel n (after (.wtc idx k) s) j).trans ?_
    rw [after_wtc_channel, if_pos here]
  have short (n : Nat) (before : n < max 1 ((s.channel j).prescaler.divisor - (s.channel j).triggerCount)) :
      Channel.ticked^[n] ((s.channel j).started k) =
        { (s.channel j).started k with triggerCount := (s.channel j).triggerCount + n } :=
    ticked_iterate_of_short timer rfl (c := (s.channel j).started k)
      (by change n = 0 ∨ (s.channel j).triggerCount + n < (s.channel j).prescaler.divisor; omega)
  refine ⟨fun n before => ⟨_, execAll_of_initialised initialised _, ?_⟩,
    ⟨_, execAll_of_initialised initialised _, ?_⟩⟩
  · rw [channel, short n before]
    exact ⟨rfl, rfl⟩
  · obtain ⟨m, last⟩ := Nat.exists_eq_add_one_of_ne_zero
      (n := max 1 ((s.channel j).prescaler.divisor - (s.channel j).triggerCount)) (by omega)
    have reached : (s.channel j).prescaler.divisor ≤ (s.channel j).triggerCount + m + 1 := by omega
    rw [channel, last, Function.iterate_succ_apply', short m (by omega)]
    rw [ticked_of_le (c := { (s.channel j).started k with triggerCount := (s.channel j).triggerCount + m })
      timer rfl reached, counted_triggerCount, counted_currentCount]
    refine ⟨rfl, ?_⟩
    change (if reload k ≤ 1 then reload k else reload k - 1) = _
    have := reload_pos k
    split <;> split <;> omega

/-! ### Counter mode -/

section
variable {c : Channel} (counter : c.mode = .counter) (rising : c.triggerEdge = .rising) (running : c.isRunning = true)

include rising in
/-- With Rising selected a low level is never an edge (R112). -/
theorem triggered_low : c.triggered false = { c with lastTriggerState := false } := by
  have noEdge : c.seesEdge false = false := by
    rw [Bool.eq_false_iff, Ne, seesEdge_iff, rising]
    simp
  rw [Channel.triggered, if_neg]
  simp [noEdge]

include counter rising running in
/-- With Rising selected a high level after a low one counts (R112, R115). -/
theorem triggered_high_of_low (low : c.lastTriggerState = false) :
    c.triggered true = { c.counted with lastTriggerState := true } := by
  have edge : c.seesEdge true = true := (seesEdge_iff c true).mpr (.inl ⟨rising, low, rfl⟩)
  rw [Channel.triggered, if_pos ⟨counter, edge, running⟩]

end

/-- A repeated level changes nothing (R112, R115). -/
theorem triggered_lastTriggerState (c : Channel) : c.triggered c.lastTriggerState = c := by
  rw [Channel.triggered, if_neg]
  simp [seesEdge_lastTriggerState]

/-- One low and one high level (R112). -/
def risingPair (idx : Byte) : List Instr := [.trig idx false, .trig idx true]

theorem afterAll_pairs_succ (idx : Byte) (n : Nat) (s : State) :
    afterAll (List.replicate (n + 1) (risingPair idx)).flatten s =
      after (.trig idx true) (after (.trig idx false) (afterAll (List.replicate n (risingPair idx)).flatten s)) := by
  rw [List.replicate_succ', List.flatten_append, afterAll_append]
  rfl

/-- The Counter-mode channel after e counted edges, the last level being as given. -/
def edgedAt (c : Channel) (e : Nat) (level : Bool) : Channel := { countedAt c e with lastTriggerState := level }

section
variable {c : Channel} (counter : c.mode = .counter) (rising : c.triggerEdge = .rising) (running : c.isRunning = true)

include rising in
theorem edgedAt_low (e : Nat) (level : Bool) : (edgedAt c e level).triggered false = edgedAt c e false :=
  triggered_low (c := edgedAt c e level) rising

include counter rising running

theorem edgedAt_high (e : Nat) : (edgedAt c e false).triggered true = edgedAt c (e + 1) true := by
  rw [triggered_high_of_low (c := edgedAt c e false) counter rising running rfl]
  exact congrArg (fun d : Channel => { d with lastTriggerState := true })
    (counted_countedAt { c with lastTriggerState := false } e)

theorem trigCrosses_edgedAt_iff (e : Nat) :
    (edgedAt c e false).trigCrosses true = true ↔ (e + 1) % reload c.timeConstant = 0 := by
  have edge : (edgedAt c e false).seesEdge true = true :=
    (seesEdge_iff (edgedAt c e false) true).mpr (.inl ⟨rising, rfl, rfl⟩)
  rw [trigCrosses_iff, ← countedAt_currentCount_le_one_iff]
  exact ⟨fun ⟨_, _, _, last⟩ => last, fun last => ⟨counter, running, edge, last⟩⟩

end

section
variable {s : State} {idx : Byte} {j : ChannelId} (here : idx.toNat = j.val)
  (counter : (s.channel j).mode = .counter) (rising : (s.channel j).triggerEdge = .rising)
  (running : (s.channel j).isRunning = true)
  (full : (s.channel j).currentCount = reload (s.channel j).timeConstant)

include here in
theorem after_trig_channel_here (level : Bool) (t : State) :
    (after (.trig idx level) t).channel j = (t.channel j).triggered level := by
  rw [after_trig_channel, if_pos here]

include here counter rising running full in
/-- Each pair of levels counts one edge. -/
theorem afterAll_pairs_channel (n : Nat) :
    ∃ level, (afterAll (List.replicate n (risingPair idx)).flatten s).channel j = edgedAt (s.channel j) n level := by
  induction n with
  | zero =>
    refine ⟨(s.channel j).lastTriggerState, ?_⟩
    rw [edgedAt, countedAt_zero full]
    rfl
  | succ n ih =>
    obtain ⟨level, channel⟩ := ih
    refine ⟨true, ?_⟩
    rw [afterAll_pairs_succ, after_trig_channel_here here, after_trig_channel_here here, channel, edgedAt_low rising,
      edgedAt_high counter rising running]

include here in
theorem afterAll_repeated_trig_channel {level : Bool} {t : State} (last : (t.channel j).lastTriggerState = level)
    (m : Nat) : (afterAll (List.replicate m (.trig idx level)) t).channel j = t.channel j := by
  induction m with
  | zero => rfl
  | succ m ih =>
    rw [afterAll_replicate_succ, after_trig_channel_here here, ih, ← last, triggered_lastTriggerState]

end

/-- Settles O36: n pairs leave the channel `edgedAt` n (`afterAll_pairs_channel`); the last high level's event is its
crossing, and a repeated level is no edge (`afterAll_repeated_trig_channel`). -/
theorem counterChannelCountsRisingPairs : Obligations.CounterChannelCountsRisingPairs := by
  intro s idx j initialised here counter rising running full n pos
  obtain ⟨n, rfl⟩ := Nat.exists_eq_add_one_of_ne_zero pos.ne'
  obtain ⟨level, before⟩ := afterAll_pairs_channel here counter rising running full n
  have low : (after (.trig idx false) (afterAll (List.replicate n (risingPair idx)).flatten s)).channel j =
      edgedAt (s.channel j) n false := by
    rw [after_trig_channel_here here, before, edgedAt_low rising]
  have ends := afterAll_pairs_succ idx n s
  have high : (afterAll (List.replicate (n + 1) (risingPair idx)).flatten s).channel j =
      edgedAt (s.channel j) (n + 1) true := by
    rw [ends, after_trig_channel_here here, low, edgedAt_high counter rising running]
  refine ⟨_, execAll_of_initialised initialised _, high, ?_, fun m =>
    ⟨_, execAll_of_initialised (afterAll_initialised initialised _) _,
      afterAll_repeated_trig_channel here (congrArg Channel.lastTriggerState high) m⟩⟩
  change _ ∈ (afterAll (List.replicate (n + 1) (risingPair idx)).flatten s).events ↔ _
  rw [ends, cb_mem_after_trig_events, low, trigCrosses_edgedAt_iff counter rising running]
  exact ⟨fun ⟨_, crossing, installed⟩ => ⟨installed, crossing⟩, fun ⟨installed, crossing⟩ => ⟨here, crossing, installed⟩⟩

end Sys2Proof.Proofs
end

section
/-!
The assembly text (30_encoding.md R88, D26): the number a written operand reads back as, the parts of a written line, and
each instruction's line.
-/
namespace Sys2Proof.Proofs
open Sys2Proof.Machine

/-! ### Digits and numbers -/

theorem digitValue_hexDigit (d : BitVec 4) : digitValue (hexDigit d) = some d.toNat := by
  revert d
  decide

theorem readDigits_hexDigit (soFar : Nat) (d : BitVec 4) (rest : List Char) :
    readDigits 16 soFar (hexDigit d :: rest) = readDigits 16 (soFar * 16 + d.toNat) rest := by
  rw [readDigits, digitValue_hexDigit]
  exact if_pos d.isLt

/-- The two digits of a byte read as its value, most significant first (R88). -/
theorem readDigits_hexByte (soFar : Nat) (b : Byte) (rest : List Char) :
    readDigits 16 soFar (hexByte b ++ rest) = readDigits 16 (soFar * 256 + b.toNat) rest := by
  have value : (soFar * 16 + (b.extractLsb' 4 4).toNat) * 16 + (b.extractLsb' 0 4).toNat = soFar * 256 + b.toNat := by
    have := b.isLt
    simp only [BitVec.extractLsb'_toNat, Nat.shiftRight_eq_div_pow]
    omega
  rw [hexByte, List.cons_append, List.cons_append, List.nil_append, readDigits_hexDigit, readDigits_hexDigit, value]

/-- A number in hexadecimal is read by its digits, two of a byte at least (R88). -/
theorem readNumber_hexByte (b : Byte) (rest : List Char) :
    readNumber ('0' :: 'x' :: (hexByte b ++ rest)) = readDigits 16 b.toNat rest :=
  calc readNumber ('0' :: 'x' :: (hexByte b ++ rest))
    _ = readDigits 16 0 (hexByte b ++ rest) := rfl
    _ = readDigits 16 b.toNat rest := by rw [readDigits_hexByte, Nat.zero_mul, Nat.zero_add]

theorem readNumber_writeByte (b : Byte) : readNumber (writeByte b) = some b.toNat :=
  readNumber_hexByte b []

theorem readNumber_writeFrequency (f : Frequency) : readNumber (writeFrequency f) = some f.toNat := by
  have value : (((f.extractLsb' 24 8).toNat * 256 + (f.extractLsb' 16 8).toNat) * 256
      + (f.extractLsb' 8 8).toNat) * 256 + (f.extractLsb' 0 8).toNat = f.toNat := by
    have := f.isLt
    simp only [BitVec.extractLsb'_toNat, Nat.shiftRight_eq_div_pow]
    omega
  rw [writeFrequency, List.append_assoc, List.append_assoc, readNumber_hexByte, readDigits_hexByte,
    readDigits_hexByte, ← List.append_nil (hexByte (f.extractLsb' 0 8)), readDigits_hexByte, readDigits, value]

theorem readSwitch_writeSwitch (on : Bool) : readSwitch (writeSwitch on) = some on := by
  cases on <;> rfl

theorem readLevel_writeLevel (level : Bool) : readLevel (writeLevel level) = some level := by
  cases level <;> rfl

/-! ### Words -/

/-- A character that can stand in a word: no blank, no comma and no ';'. -/
def wordChar (c : Char) : Bool := !isBlank c && c != ',' && c != ';'

/-- A written word: not empty, and of word characters. -/
def Word (text : List Char) : Prop := text ≠ [] ∧ text.all wordChar = true

theorem wordChar_hexDigit (d : BitVec 4) : wordChar (hexDigit d) = true := by
  revert d
  decide

theorem all_wordChar_hexByte (b : Byte) : (hexByte b).all wordChar = true := by
  rw [hexByte, List.all_cons, List.all_cons, wordChar_hexDigit, wordChar_hexDigit]
  rfl

/-- A number written in hexadecimal is a word if its digits are. -/
theorem word_hex {digits : List Char} (all : digits.all wordChar = true) : Word ('0' :: 'x' :: digits) := by
  refine ⟨List.cons_ne_nil _ _, ?_⟩
  rw [List.all_cons, List.all_cons, all]
  rfl

theorem word_writeByte (b : Byte) : Word (writeByte b) := word_hex (all_wordChar_hexByte b)

theorem word_writeFrequency (f : Frequency) : Word (writeFrequency f) :=
  word_hex (by simp [List.all_append, all_wordChar_hexByte, -List.all_eq_true])

theorem word_writeSwitch (on : Bool) : Word (writeSwitch on) := by
  cases on <;> exact ⟨List.cons_ne_nil _ _, rfl⟩

theorem word_writeLevel (level : Bool) : Word (writeLevel level) := by
  cases level <;> exact ⟨List.cons_ne_nil _ _, rfl⟩

theorem Word.wordChar {text : List Char} (word : Word text) {c : Char} (member : c ∈ text) :
    isBlank c = false ∧ c ≠ ',' ∧ c ≠ ';' := by
  obtain ⟨-, all⟩ := word
  have := List.all_eq_true.mp all c member
  simpa [Proofs.wordChar, and_assoc] using this

theorem Word.not_blank {text : List Char} (word : Word text) {c : Char} (member : c ∈ text) : isBlank c = false := by
  obtain ⟨notBlank, -, -⟩ := word.wordChar member
  exact notBlank

theorem Word.ne_comma {text : List Char} (word : Word text) {c : Char} (member : c ∈ text) : c ≠ ',' := by
  obtain ⟨-, notComma, -⟩ := word.wordChar member
  exact notComma

theorem Word.ne_semicolon {text : List Char} (word : Word text) {c : Char} (member : c ∈ text) : c ≠ ';' := by
  obtain ⟨-, -, notSemicolon⟩ := word.wordChar member
  exact notSemicolon

theorem Word.reverse {text : List Char} (word : Word text) : Word text.reverse :=
  ⟨List.reverse_ne_nil_iff.mpr word.1, by rw [List.all_reverse, word.2]⟩

/-- A text that begins with a word begins with no blank. -/
theorem Word.dropWhile_isBlank {text : List Char} (word : Word text) (rest : List Char) :
    (text ++ rest).dropWhile isBlank = text ++ rest := by
  obtain ⟨c, cs, rfl⟩ := List.exists_cons_of_ne_nil word.1
  exact List.dropWhile_cons_of_neg (Bool.eq_false_iff.mp (word.not_blank List.mem_cons_self))

/-- A text that begins and ends with a word has no blank to trim. -/
theorem trim_eq_self {text first rest most last : List Char} (begins : text = first ++ rest) (ends : text = most ++ last)
    (wordFirst : Word first) (wordLast : Word last) : trim text = text := by
  rw [trim, begins, wordFirst.dropWhile_isBlank, ← begins, ends, List.reverse_append, wordLast.reverse.dropWhile_isBlank,
    ← List.reverse_append, List.reverse_reverse]

theorem trim_blank_cons (text : List Char) : trim (' ' :: text) = trim text := rfl

theorem Word.trim_blank_cons {text : List Char} (word : Word text) : trim (' ' :: text) = text :=
  (Proofs.trim_blank_cons text).trans (trim_eq_self (List.append_nil _).symm (List.nil_append _).symm word word)

/-! ### Lines -/

/-- The operands after the first, as written (R88). -/
def furtherOperands : List (List Char) → List Char
  | [] => []
  | x :: rest => ',' :: ' ' :: x ++ furtherOperands rest

/-- A line as written: the name, and its operands between commas (R88). -/
def lineOf (name : List Char) : List (List Char) → List Char
  | [] => name
  | x :: rest => name ++ ' ' :: (x ++ furtherOperands rest)

/-- A first word with operands after it ends in a word. -/
theorem exists_last_word {x : List Char} {rest : List (List Char)} (wordX : Word x) (wordRest : ∀ y ∈ rest, Word y) :
    ∃ most last, Word last ∧ x ++ furtherOperands rest = most ++ last := by
  induction rest generalizing x with
  | nil => exact ⟨[], x, wordX, List.append_nil x⟩
  | cons y rest ih =>
    obtain ⟨most, last, wordLast, ends⟩ :=
      ih (wordRest y List.mem_cons_self) fun z member => wordRest z (List.mem_cons_of_mem y member)
    exact ⟨x ++ ',' :: ' ' :: most, last, wordLast, by simp [furtherOperands, ends]⟩

theorem splitCommas_cons_of_ne {c : Char} (other : c ≠ ',') {text part : List Char} {parts : List (List Char)}
    (splits : splitCommas text = part :: parts) : splitCommas (c :: text) = (c :: part) :: parts := by
  simp [splitCommas, splits, other]

theorem splitCommas_comma_cons {text part : List Char} {parts : List (List Char)}
    (splits : splitCommas text = part :: parts) : splitCommas (',' :: text) = [] :: part :: parts := by
  simp [splitCommas, splits]

/-- Text without a comma stays in one part. -/
theorem splitCommas_append {part : List Char} (noComma : ∀ c ∈ part, c ≠ ',') {text p : List Char}
    {parts : List (List Char)} (splits : splitCommas text = p :: parts) :
    splitCommas (part ++ text) = (part ++ p) :: parts := by
  induction part with
  | nil => exact splits
  | cons c cs ih =>
    exact splitCommas_cons_of_ne (noComma c List.mem_cons_self)
      (ih fun d member => noComma d (List.mem_cons_of_mem c member))

/-- The parts of written operands, each but the first with the blank after its comma. -/
theorem splitCommas_operands {part : List Char} {rest : List (List Char)} (noComma : ∀ c ∈ part, c ≠ ',')
    (wordRest : ∀ y ∈ rest, Word y) :
    splitCommas (part ++ furtherOperands rest) = part :: rest.map (' ' :: ·) := by
  induction rest generalizing part with
  | nil => simpa [furtherOperands] using splitCommas_append noComma (text := []) rfl
  | cons y rest ih =>
    have blankY : ∀ c ∈ ' ' :: y, c ≠ ',' :=
      List.forall_mem_cons.mpr ⟨by decide, fun _ => (wordRest y List.mem_cons_self).ne_comma⟩
    have further := splitCommas_comma_cons (ih blankY fun z member => wordRest z (List.mem_cons_of_mem y member))
    simpa [furtherOperands] using splitCommas_append noComma further

/-- The text after a name is read as the operands it was written from. -/
theorem operandsOf_written {x : List Char} {rest : List (List Char)} (wordX : Word x) (wordRest : ∀ y ∈ rest, Word y) :
    operandsOf (' ' :: (x ++ furtherOperands rest)) = x :: rest := by
  obtain ⟨most, last, wordLast, ends⟩ := exists_last_word wordX wordRest
  have trimmed : trim (' ' :: (x ++ furtherOperands rest)) = x ++ furtherOperands rest :=
    (trim_blank_cons _).trans (trim_eq_self rfl ends wordX wordLast)
  have nonempty : x ++ furtherOperands rest ≠ [] := List.append_ne_nil_of_left_ne_nil wordX.1 _
  have blankX : ∀ c ∈ ' ' :: x, c ≠ ',' :=
    List.forall_mem_cons.mpr ⟨by decide, fun _ => wordX.ne_comma⟩
  have unspaced : rest.map (trim ∘ (' ' :: ·)) = rest :=
    (List.map_congr_left fun y member => (wordRest y member).trim_blank_cons).trans (List.map_id rest)
  rw [operandsOf, trimmed, if_neg nonempty, ← List.cons_append, splitCommas_operands blankX wordRest, List.map_cons,
    wordX.trim_blank_cons, List.map_map, unspaced]

section
variable {name : List Char} {ops : List (List Char)} (wordName : Word name) (wordOps : ∀ x ∈ ops, Word x)

/-- The blanks, commas and words of a line hold no ';', so nothing of it is a comment (R88). -/
theorem furtherOperands_ne_semicolon (wordOps : ∀ x ∈ ops, Word x) : ∀ c ∈ furtherOperands ops, c ≠ ';' := by
  induction ops with
  | nil => exact fun c member => absurd member List.not_mem_nil
  | cons x rest ih =>
    refine List.forall_mem_cons.mpr ⟨by decide, List.forall_mem_cons.mpr ⟨by decide, List.forall_mem_append.mpr ⟨?_, ?_⟩⟩⟩
    · exact fun c => (wordOps x List.mem_cons_self).ne_semicolon
    · exact ih fun y member => wordOps y (List.mem_cons_of_mem x member)

include wordName wordOps

theorem stripComment_lineOf : stripComment (lineOf name ops) = lineOf name ops := by
  have noComment : ∀ c ∈ lineOf name ops, c ≠ ';' := by
    cases ops with
    | nil => exact fun c => wordName.ne_semicolon
    | cons x rest =>
      refine List.forall_mem_append.mpr ⟨fun c => wordName.ne_semicolon, List.forall_mem_cons.mpr ⟨by decide,
        List.forall_mem_append.mpr ⟨fun c => (wordOps x List.mem_cons_self).ne_semicolon, ?_⟩⟩⟩
      exact furtherOperands_ne_semicolon fun y member => wordOps y (List.mem_cons_of_mem x member)
  exact List.takeWhile_eq_self_iff.mpr fun c member => bne_iff_ne.mpr (noComment c member)

theorem trim_lineOf : trim (lineOf name ops) = lineOf name ops := by
  cases ops with
  | nil => exact trim_eq_self (List.append_nil _).symm (List.nil_append _).symm wordName wordName
  | cons x rest =>
    obtain ⟨most, last, wordLast, ends⟩ := exists_last_word (wordOps x List.mem_cons_self) fun y member =>
      wordOps y (List.mem_cons_of_mem x member)
    refine trim_eq_self rfl (most := name ++ ' ' :: most) ?_ wordName wordLast
    simp [lineOf, ends]

omit wordName in
theorem operandsOf_lineOf : operandsOf ((lineOf name ops).drop name.length) = ops := by
  cases ops with
  | nil =>
    rw [lineOf, List.drop_length]
    rfl
  | cons x rest =>
    rw [lineOf, List.drop_left]
    exact operandsOf_written (wordOps x List.mem_cons_self) fun y member => wordOps y (List.mem_cons_of_mem x member)

omit wordOps in
theorem takeWhile_lineOf : (lineOf name ops).takeWhile (! isBlank ·) = name := by
  have noBlank : ∀ c ∈ name, (! isBlank c) = true := fun c member => by rw [wordName.not_blank member]; rfl
  cases ops with
  | nil => exact List.takeWhile_eq_self_iff.mpr noBlank
  | cons x rest =>
    rw [lineOf, List.takeWhile_append_of_pos noBlank]
    exact List.append_nil name

omit wordOps in
theorem lineOf_ne_nil : lineOf name ops ≠ [] := by
  cases ops with
  | nil => exact wordName.1
  | cons x rest => exact List.append_ne_nil_of_left_ne_nil wordName.1 _

/-- A written line is read as its row of the table of mnemonics reads its operands (R88). -/
theorem readCommand_lineOf {row : List Char × (List (List Char) → Option AsmCommand)} {c : AsmCommand}
    (found : syntaxTable.find? (·.1 == name) = some row) (parses : row.2 ops = some c) (fits : c.wellFormed = true) :
    readCommand (lineOf name ops) = some c := by
  simp only [readCommand, stripComment_lineOf wordName wordOps, trim_lineOf wordName wordOps,
    takeWhile_lineOf wordName, operandsOf_lineOf wordOps, found, parses, fits, if_true]

/-- A written line assembles to what its command stands for (R88, R89). -/
theorem assemble_lineOf {row : List Char × (List (List Char) → Option AsmCommand)} {c : AsmCommand}
    (found : syntaxTable.find? (·.1 == name) = some row) (parses : row.2 ops = some c) (fits : c.wellFormed = true) :
    assemble [lineOf name ops] = some (expand c) := by
  simp only [assemble, stripComment_lineOf wordName wordOps, trim_lineOf wordName wordOps,
    if_neg (lineOf_ne_nil wordName), readCommand_lineOf wordName wordOps found parses fits, List.append_nil]

end

/-! ### Every instruction's line -/

/-- The mnemonic of an instruction as written (R88). -/
def writtenName : Instr → List Char
  | .init _ => ['I', 'N', 'I', 'T']
  | .wctl _ _ => ['W', 'C', 'T', 'L']
  | .wtc _ _ => ['W', 'T', 'C']
  | .setcb _ _ => ['S', 'E', 'T', 'C', 'B']
  | .trig _ _ => ['T', 'R', 'I', 'G']
  | .tick => ['T', 'I', 'C', 'K']
  | .setvec _ _ => ['S', 'E', 'T', 'V', 'E', 'C']
  | .getvec _ => ['G', 'E', 'T', 'V', 'E', 'C']
  | .sethnd _ => ['S', 'E', 'T', 'H', 'N', 'D']
  | .haspend => ['H', 'A', 'S', 'P', 'E', 'N', 'D']
  | .ack => ['A', 'C', 'K']

/-- The operands of an instruction as written (R88). -/
def writtenOperands : Instr → List (List Char)
  | .init freq => [writeFrequency freq]
  | .wctl idx b => [writeByte idx, writeByte b]
  | .wtc idx k => [writeByte idx, writeByte k]
  | .setcb idx on => [writeByte idx, writeSwitch on]
  | .trig idx level => [writeByte idx, writeLevel level]
  | .tick => []
  | .setvec idx v => [writeByte idx, writeByte v]
  | .getvec idx => [writeByte idx]
  | .sethnd on => [writeSwitch on]
  | .haspend => []
  | .ack => []

theorem writeInstr_eq_lineOf (i : Instr) : writeInstr i = lineOf (writtenName i) (writtenOperands i) := by
  cases i <;> simp [writeInstr, writtenName, writtenOperands, lineOf, furtherOperands]

theorem word_writtenName (i : Instr) : Word (writtenName i) := by
  cases i <;> exact ⟨List.cons_ne_nil _ _, rfl⟩

theorem word_writtenOperands (i : Instr) : ∀ x ∈ writtenOperands i, Word x := by
  cases i <;> simp [writtenOperands, word_writeByte, word_writeFrequency, word_writeSwitch, word_writeLevel]

/-- The assembly command of an instruction, its operands as numbers. -/
def commandOf : Instr → AsmCommand
  | .init freq => .init freq.toNat
  | .wctl idx b => .wctl idx.toNat b.toNat
  | .wtc idx k => .wtc idx.toNat k.toNat
  | .setcb idx on => .setcb idx.toNat on
  | .trig idx level => .trig idx.toNat level
  | .tick => .tick
  | .setvec idx v => .setvec idx.toNat v.toNat
  | .getvec idx => .getvec idx.toNat
  | .sethnd on => .sethnd on
  | .haspend => .haspend
  | .ack => .ack

theorem fitsByte_toNat (b : Byte) : fitsByte b.toNat = true := decide_eq_true b.isLt

theorem fitsFrequency_toNat (f : Frequency) : fitsFrequency f.toNat = true := decide_eq_true f.isLt

theorem commandOf_wellFormed (i : Instr) : (commandOf i).wellFormed = true := by
  cases i <;> simp [commandOf, AsmCommand.wellFormed, fitsByte_toNat, fitsFrequency_toNat]

theorem expand_commandOf (i : Instr) : expand (commandOf i) = [i] := by
  cases i <;> simp [commandOf, expand]

/-- The row of an instruction's mnemonic reads its written operands as its command. -/
theorem row_reads_writtenOperands (i : Instr) :
    ∃ row, syntaxTable.find? (·.1 == writtenName i) = some row ∧ row.2 (writtenOperands i) = some (commandOf i) := by
  cases i
  all_goals
    refine ⟨_, rfl, ?_⟩
    simp [writtenOperands, commandOf, oneNumber, twoNumbers, numberAnd, noOperand, oneSwitch, readNumber_writeByte,
      readNumber_writeFrequency, readSwitch_writeSwitch, readLevel_writeLevel]

/-- Settles O15: the line is `lineOf` the instruction's name and operands, which its row of the table reads back
(`row_reads_writtenOperands`) as the command that expands to the instruction alone. -/
theorem assemblerReadsWhatItWrites : Obligations.AssemblerReadsWhatItWrites := by
  intro i
  obtain ⟨row, found, parses⟩ := row_reads_writtenOperands i
  rw [writeInstr_eq_lineOf, assemble_lineOf (word_writtenName i) (word_writtenOperands i) found parses
    (commandOf_wellFormed i), expand_commandOf]

end Sys2Proof.Proofs
end
